-- ==== Sys2Proof/Word.lean ====
section
/-! DEFINITION. The widths of the SRC: words, bytes, halves, register numbers (00_scope.md R5, R8, R11). -/

namespace Sys2Proof

/-- A 32-bit word: register contents, addresses while they are computed, instruction words (R5, `XLEN`, `WORD`, `ILEN`). -/
abbrev Word := BitVec 32

/-- The addressable unit, 8 bits (R5, `BYTE`). -/
abbrev Byte := BitVec 8

/-- 16 bits: the width of `II` (10_state.md R29) and of assembler halfwords (R5, `HALF`). -/
abbrev Half := BitVec 16

/-- A general register's number, 0 to 31 (R5 `NREGS`, R11). -/
abbrev Reg := Fin 32

end Sys2Proof
end

