-- ==== Sys2Proof/Config.lean ====
section
/-! DEFINITION. What one SRC fixes and the spec leaves as a parameter (00_scope.md R6), and the free values. The spec's defaults are
in Machine/Defaults.lean; a reader with better evidence changes one there without touching a rule. -/

namespace Sys2Proof

/-- `BYTE_ORDER` (R6, 20_memory.md R41): which end of a word the lowest address holds. -/
inductive ByteOrder where
  | bigEndian
  | littleEndian
  deriving DecidableEq, Repr

/-- `MISALIGNED` (R6, 20_memory.md R43, R44): what a word access or a fetch at an address not a multiple of 4 does. -/
inductive Misaligned where
  /-- The model fault `MisalignedData` or `MisalignedFetch`: the default. -/
  | fault
  /-- The four bytes from the address on, modulo 2^32. -/
  | bytewise
  deriving DecidableEq, Repr

/-- `SVI_UPPER` (R6, 44_miscellaneous.md R195): bits 31..16 of R[ra] after `svi`. -/
inductive SviUpper where
  /-- A free value, `Config.freeUpper`: the default. -/
  | anyValue
  | unchanged
  | zero
  deriving DecidableEq, Repr

/-- What a range of `MEM_MAP` is (20_memory.md R47). -/
inductive RegionKind where
  | memory
  | device
  deriving DecidableEq, Repr

/-- One address range of `MEM_MAP` (20_memory.md R47): bytes `base` to `base + size - 1`. -/
structure Region where
  base : Nat
  size : Nat
  readable : Bool
  writable : Bool
  kind : RegionKind
  deriving DecidableEq, Repr

/-- `ENC_FIELDS` (R6, 30_encoding.md R61): the lowest bit of every instruction field. The widths 5, 5, 5, 5, 22, 17, 12 are those of
the operands of `Instr`. -/
structure FieldPositions where
  op : Nat
  ra : Nat
  rb : Nat
  rc : Nat
  c1 : Nat
  c2 : Nat
  c3 : Nat
  deriving DecidableEq, Repr

/-- The 28 machine operations (30_encoding.md R74). -/
inductive Operation where
  | nop
  | ld
  | ldr
  | st
  | str
  | la
  | lar
  | br
  | brl
  | een
  | edi
  | add
  | addi
  | sub
  | neg
  | svi
  | ri
  | and
  | andi
  | or
  | ori
  | not
  | shr
  | shra
  | shl
  | shc
  | rfi
  | stop
  deriving DecidableEq, Repr

/-- The six branch conditions (43_branch.md R160). -/
inductive Cond where
  | never
  | always
  | zero
  | nonzero
  | plus
  | minus
  deriving DecidableEq, Repr

/-- `ILLEGAL` (R6, 30_encoding.md R76, R78): what an unused operation code or condition number does. The spec gives it one value. -/
inductive Illegal where
  /-- The model faults `IllegalOpcode` and `ReservedCondition`. -/
  | fault
  deriving DecidableEq, Repr

/-- The parameters of R6 that are data of the machine; `IRQ` is the field `irq` of State. -/
structure Config where
  fields : FieldPositions
  /-- `ENC_OPCODES`: the rows of the operation-code map. -/
  opcodes : List (BitVec 5 × Operation)
  /-- `ENC_COND`: the numbers of the conditions. -/
  conds : List (BitVec 3 × Cond)
  byteOrder : ByteOrder
  misaligned : Misaligned
  illegal : Illegal
  memMap : List Region
  resetPc : Word
  resetIe : Bool
  resetGpr : Word
  sviUpper : SviUpper
  deriving DecidableEq, Repr

/-- The default `MEM_MAP`: all 2^32 bytes are ordinary read-write memory (20_memory.md R47). -/
def Config.allMemory : List Region :=
  [{ base := 0, size := 2 ^ 32, readable := true, writable := true, kind := .memory }]

/-- A FREE VALUE with no body: bits 31..16 of R[ra] after `svi` under `SviUpper.anyValue` (R195, 93_implementation_defined.md U9),
applied to the state's counter `draws`. Log entry 12. -/
opaque Config.freeUpper : Nat → Half

/-- A FREE VALUE with no body: what the byte at an address holds until something is written there (10_state.md R36,
93_implementation_defined.md U8). Log entry 10. -/
opaque Config.freeByte : Nat → Byte

end Sys2Proof
end

