-- ==== Sys2Proof/Machine/Defaults.lean ====
section
/-! DEFINITION. The machine this model is of: the defaults of 00_scope.md R6, one definition per table. -/

namespace Sys2Proof

/-- The default `ENC_FIELDS` (30_encoding.md R61, decision D1): op 31..27, ra 26..22, rb 21..17, rc 16..12, c1 21..0, c2 16..0,
c3 11..0. UNVERIFIED (log entry 1). -/
def defaultFields : FieldPositions where
  op := 27
  ra := 22
  rb := 17
  rc := 12
  c1 := 0
  c2 := 0
  c3 := 0

/-- The default `ENC_OPCODES` (30_encoding.md R74, decision D2); 7, 18, 19 and 25 are unused (R76). UNVERIFIED (log entry 1). -/
def defaultOpcodes : List (BitVec 5 × Operation) :=
  [(0, .nop), (1, .ld), (2, .ldr), (3, .st), (4, .str), (5, .la), (6, .lar), (8, .br), (9, .brl), (10, .een), (11, .edi)] ++
  [(12, .add), (13, .addi), (14, .sub), (15, .neg), (16, .svi), (17, .ri), (20, .and), (21, .andi), (22, .or), (23, .ori)] ++
  [(24, .not), (26, .shr), (27, .shra), (28, .shl), (29, .shc), (30, .rfi), (31, .stop)]

/-- The default `ENC_COND` (43_branch.md R160, decision D3); 6 and 7 are unused (30_encoding.md R78). UNVERIFIED (log entry 1). -/
def defaultConds : List (BitVec 3 × Cond) :=
  [(0, .never), (1, .always), (2, .zero), (3, .nonzero), (4, .plus), (5, .minus)]

/-- The defaults of R6. DESIGN CHOICE (log entry 9): `resetGpr` is 0 where the spec says `unspecified`. -/
def config : Config where
  fields := defaultFields
  opcodes := defaultOpcodes
  conds := defaultConds
  byteOrder := .bigEndian
  misaligned := .fault
  illegal := .fault
  memMap := Config.allMemory
  resetPc := 0
  resetIe := false
  resetGpr := 0
  sviUpper := .anyValue

end Sys2Proof
end

