-- ==== Sys2Proof/Syntax.lean ====
section
/-! DEFINITION. The instructions of the SRC: one constructor per row of spec/opcode_table.json, in the families of the source's
table (00_scope.md R3; the syntax is 30_encoding.md R83). The table's two rows of kind `alias`, the general forms
`br rb, rc, c3` and `brl ra, rb, rc, c3`, are other names of the words of the condition rows (30_encoding.md R75, R86) and have
no constructor of their own (log entry 19). Bits that a format does not use are not part of an instruction (R77). -/

namespace Sys2Proof

/-- An instruction as the decoder leaves it. Registers are numbers 0 to 31; `c1` (22 bits), `c2` (17 bits) and a shift's `count`
(5 bits) are the fields of the word (30_encoding.md R61, R68), not yet extended. -/
inductive Instr where
  -- LOAD AND STORE (40_load_store.md)
  /-- `ld ra, c2`: load from an absolute address; the rb field is 0 (R102). -/
  | ldAbs (ra : Reg) (c2 : BitVec 17)
  /-- `ld ra, c2(rb)`, rb not 0: load from a displacement address (R102). -/
  | ldDisp (ra rb : Reg) (c2 : BitVec 17)
  /-- `ldr ra, c1`: load from a relative address (R103). -/
  | ldr (ra : Reg) (c1 : BitVec 22)
  /-- `st ra, c2`: store into an absolute address; the rb field is 0 (R104). -/
  | stAbs (ra : Reg) (c2 : BitVec 17)
  /-- `st ra, c2(rb)`, rb not 0: store into a displacement address (R104). -/
  | stDisp (ra rb : Reg) (c2 : BitVec 17)
  /-- `str ra, c1`: store into a relative address (R105). -/
  | str (ra : Reg) (c1 : BitVec 22)
  /-- `la ra, c2`: load the value of an absolute address; the rb field is 0 (R106). -/
  | laAbs (ra : Reg) (c2 : BitVec 17)
  /-- `la ra, c2(rb)`, rb not 0: load the value of a displacement address (R106). -/
  | laDisp (ra rb : Reg) (c2 : BitVec 17)
  /-- `lar ra, c1`: load the value of a relative address (R107). -/
  | lar (ra : Reg) (c1 : BitVec 22)
  -- ARITHMETIC AND LOGIC (41_arithmetic.md)
  /-- `add ra, rb, rc` (R121). -/
  | add (ra rb rc : Reg)
  /-- `addi ra, rb, c2` (R122); rb = 0 is R[0]. -/
  | addi (ra rb : Reg) (c2 : BitVec 17)
  /-- `sub ra, rb, rc` (R123). -/
  | sub (ra rb rc : Reg)
  /-- `neg ra, rc` (R124). -/
  | neg (ra rc : Reg)
  /-- `or ra, rb, rc` (R125). -/
  | or (ra rb rc : Reg)
  /-- `ori ra, rb, c2` (R126). -/
  | ori (ra rb : Reg) (c2 : BitVec 17)
  /-- `and ra, rb, rc` (R127). -/
  | and (ra rb rc : Reg)
  /-- `andi ra, rb, c2` (R128). -/
  | andi (ra rb : Reg) (c2 : BitVec 17)
  /-- `not ra, rc` (R129). -/
  | not (ra rc : Reg)
  -- SHIFT (42_shift.md)
  /-- `shr ra, rb, rc`: shift right logical, count R[rc][4:0]; the field c3[4:0] is 0 (R141). -/
  | shrReg (ra rb rc : Reg)
  /-- `shr ra, rb, c3`: shift right logical, constant count c3[4:0], not 0 (R141). -/
  | shrConst (ra rb : Reg) (count : BitVec 5)
  /-- `shra ra, rb, rc`: shift right arithmetic, count R[rc][4:0]; the field c3[4:0] is 0 (R142). -/
  | shraReg (ra rb rc : Reg)
  /-- `shra ra, rb, c3`: shift right arithmetic, constant count c3[4:0], not 0 (R142). -/
  | shraConst (ra rb : Reg) (count : BitVec 5)
  /-- `shl ra, rb, rc`: shift left, count R[rc][4:0]; the field c3[4:0] is 0 (R143). -/
  | shlReg (ra rb rc : Reg)
  /-- `shl ra, rb, c3`: shift left, constant count c3[4:0], not 0 (R143). -/
  | shlConst (ra rb : Reg) (count : BitVec 5)
  /-- `shc ra, rb, rc`: rotate left, count R[rc][4:0]; the field c3[4:0] is 0 (R144). -/
  | shcReg (ra rb rc : Reg)
  /-- `shc ra, rb, c3`: rotate left, constant count c3[4:0], not 0 (R144). -/
  | shcConst (ra rb : Reg) (count : BitVec 5)
  -- BRANCH (43_branch.md)
  /-- `brnv`: branch never, condition 0 (R166). -/
  | brnv
  /-- `br rb`: branch always, condition 1 (R163). -/
  | br (rb : Reg)
  /-- `brzr rb, rc`: branch if R[rc] is zero, condition 2 (R167). -/
  | brzr (rb rc : Reg)
  /-- `brnz rb, rc`: branch if R[rc] is not zero, condition 3 (R169). -/
  | brnz (rb rc : Reg)
  /-- `brpl rb, rc`: branch if the sign of R[rc] is plus, condition 4 (R171). -/
  | brpl (rb rc : Reg)
  /-- `brmi rb, rc`: branch if the sign of R[rc] is minus, condition 5 (R173). -/
  | brmi (rb rc : Reg)
  /-- A `br` word with the unused condition 6 or 7 (30_encoding.md R78): no instruction of the source. -/
  | brReservedCond
  /-- `brlnv ra`: do not branch, save PC, condition 0 (R165). -/
  | brlnv (ra : Reg)
  /-- `brl ra, rb`: branch always and save PC, condition 1 (R164). -/
  | brl (ra rb : Reg)
  /-- `brlzr ra, rb, rc`: condition 2 with link (R168). -/
  | brlzr (ra rb rc : Reg)
  /-- `brlnz ra, rb, rc`: condition 3 with link (R170). -/
  | brlnz (ra rb rc : Reg)
  /-- `brlpl ra, rb, rc`: condition 4 with link (R172). -/
  | brlpl (ra rb rc : Reg)
  /-- `brlmi ra, rb, rc`: condition 5 with link (R174). -/
  | brlmi (ra rb rc : Reg)
  /-- A `brl` word with the unused condition 6 or 7 (30_encoding.md R78). -/
  | brlReservedCond
  -- MISCELLANEOUS (44_miscellaneous.md)
  /-- `nop` (R190). -/
  | nop
  /-- `stop` (R191). -/
  | stop
  /-- `een`: exception enable (R192). -/
  | een
  /-- `edi`: exception disable (R193). -/
  | edi
  /-- `rfi`: return from interrupt (R194). -/
  | rfi
  /-- `svi ra, rb`: save interrupt state (R195). -/
  | svi (ra rb : Reg)
  /-- `ri ra, rb`: restore interrupt state (R196). -/
  | ri (ra rb : Reg)
  -- UNUSED OPERATION CODES (30_encoding.md R76)
  /-- Operation code 7, which names no instruction. -/
  | unusedOp7
  /-- Operation code 18, which names no instruction. -/
  | unusedOp18
  /-- Operation code 19, which names no instruction. -/
  | unusedOp19
  /-- Operation code 25, which names no instruction. -/
  | unusedOp25
  deriving DecidableEq, Repr

end Sys2Proof
end

