-- ==== Sys2Proof/WellFormed.lean ====
section
/-! DEFINITION. Which instructions a word of memory can stand for. -/

namespace Sys2Proof

/-- The two side conditions that the variants of 30_encoding.md R75 carry: a displacement form has a base register other than
number 0 (R84: with rb = 0 the word is the absolute form), and a constant shift count is 1 to 31 (R85: with `c3[4:0]` = 0 the word
is the register form). Everything else an `Instr` can hold is an instruction some word decodes to. -/
def Instr.wf : Instr → Bool
  | .ldDisp _ rb _ => rb != 0
  | .stDisp _ rb _ => rb != 0
  | .laDisp _ rb _ => rb != 0
  | .shrConst _ _ count => count != 0
  | .shraConst _ _ count => count != 0
  | .shlConst _ _ count => count != 0
  | .shcConst _ _ count => count != 0
  | .ldAbs .. | .ldr .. | .stAbs .. | .str .. | .laAbs .. | .lar .. => true
  | .add .. | .addi .. | .sub .. | .neg .. | .or .. | .ori .. | .and .. | .andi .. | .not .. => true
  | .shrReg .. | .shraReg .. | .shlReg .. | .shcReg .. => true
  | .brnv | .br .. | .brzr .. | .brnz .. | .brpl .. | .brmi .. | .brReservedCond => true
  | .brlnv .. | .brl .. | .brlzr .. | .brlnz .. | .brlpl .. | .brlmi .. | .brlReservedCond => true
  | .nop | .stop | .een | .edi | .rfi | .svi .. | .ri .. => true
  | .unusedOp7 | .unusedOp18 | .unusedOp19 | .unusedOp25 => true

end Sys2Proof
end

