-- ==== Sys2Proof/Decode.lean ====
section
/-! DEFINITION. The instruction word under the parameters `ENC_FIELDS`, `ENC_OPCODES`, `ENC_COND` and `BYTE_ORDER` of 00_scope.md R6: its
fields, the decoder, total on words and on byte lists, and the encoder (30_encoding.md R60 to R78); then both for the default
machine, `config`. -/

namespace Sys2Proof

/-! ## Fields (R61) -/

/-- The field `op`. -/
def Config.fieldOp (c : Config) (w : Word) : BitVec 5 := w.extractLsb' c.fields.op 5
/-- The field `ra`. -/
def Config.fieldRa (c : Config) (w : Word) : Reg := (w.extractLsb' c.fields.ra 5).toFin
/-- The field `rb`. -/
def Config.fieldRb (c : Config) (w : Word) : Reg := (w.extractLsb' c.fields.rb 5).toFin
/-- The field `rc`. -/
def Config.fieldRc (c : Config) (w : Word) : Reg := (w.extractLsb' c.fields.rc 5).toFin
/-- The field `c1`. -/
def Config.fieldC1 (c : Config) (w : Word) : BitVec 22 := w.extractLsb' c.fields.c1 22
/-- The field `c2`. -/
def Config.fieldC2 (c : Config) (w : Word) : BitVec 17 := w.extractLsb' c.fields.c2 17
/-- `c3[4:0]`, the constant shift count (R68, R73). -/
def Config.fieldCount (c : Config) (w : Word) : BitVec 5 := w.extractLsb' c.fields.c3 5
/-- `c3[2:0]`, the branch condition (R65, R73). -/
def Config.fieldCond (c : Config) (w : Word) : BitVec 3 := w.extractLsb' c.fields.c3 3

/-! ## The decoder (R75) -/

/-- The operation of an operation code, none if the code is unused (R74, R76). -/
def Config.operation (c : Config) (op : BitVec 5) : Option Operation := c.opcodes.lookup op

/-- The condition of a condition number, none if the number is unused (R160, R78). -/
def Config.condition (c : Config) (k : BitVec 3) : Option Cond := c.conds.lookup k

/-- The rows of `br` (R65, R160): only `c3[2:0]` and the register fields the condition uses. -/
def Config.decodeBr (c : Config) (w : Word) : Instr :=
  match c.condition (c.fieldCond w) with
  | some .never => .brnv
  | some .always => .br (c.fieldRb w)
  | some .zero => .brzr (c.fieldRb w) (c.fieldRc w)
  | some .nonzero => .brnz (c.fieldRb w) (c.fieldRc w)
  | some .plus => .brpl (c.fieldRb w) (c.fieldRc w)
  | some .minus => .brmi (c.fieldRb w) (c.fieldRc w)
  | none => .brReservedCond

/-- The rows of `brl` (R66, R160). -/
def Config.decodeBrl (c : Config) (w : Word) : Instr :=
  match c.condition (c.fieldCond w) with
  | some .never => .brlnv (c.fieldRa w)
  | some .always => .brl (c.fieldRa w) (c.fieldRb w)
  | some .zero => .brlzr (c.fieldRa w) (c.fieldRb w) (c.fieldRc w)
  | some .nonzero => .brlnz (c.fieldRa w) (c.fieldRb w) (c.fieldRc w)
  | some .plus => .brlpl (c.fieldRa w) (c.fieldRb w) (c.fieldRc w)
  | some .minus => .brlmi (c.fieldRa w) (c.fieldRb w) (c.fieldRc w)
  | none => .brlReservedCond

/-- `ld`, `st`, `la`: the absolute form when the rb field is 0, else the displacement form (R75, R84). -/
def Config.decodeBase (c : Config) (w : Word) (abs : Reg → BitVec 17 → Instr) (disp : Reg → Reg → BitVec 17 → Instr) : Instr :=
  if c.fieldRb w = 0 then abs (c.fieldRa w) (c.fieldC2 w) else disp (c.fieldRa w) (c.fieldRb w) (c.fieldC2 w)

/-- `addi`, `ori`, `andi` (R62). -/
def Config.decodeImm (c : Config) (w : Word) (f : Reg → Reg → BitVec 17 → Instr) : Instr :=
  f (c.fieldRa w) (c.fieldRb w) (c.fieldC2 w)

/-- `ldr`, `str`, `lar` (R63). -/
def Config.decodeRel (c : Config) (w : Word) (f : Reg → BitVec 22 → Instr) : Instr := f (c.fieldRa w) (c.fieldC1 w)

/-- `add`, `sub`, `and`, `or` (R67). -/
def Config.decodeThree (c : Config) (w : Word) (f : Reg → Reg → Reg → Instr) : Instr :=
  f (c.fieldRa w) (c.fieldRb w) (c.fieldRc w)

/-- A shift: the register form when `c3[4:0]` is 0, else the constant form (R68, R75). -/
def Config.decodeShift (c : Config) (w : Word) (reg : Reg → Reg → Reg → Instr) (const : Reg → Reg → BitVec 5 → Instr) : Instr :=
  if c.fieldCount w = 0 then reg (c.fieldRa w) (c.fieldRb w) (c.fieldRc w)
  else const (c.fieldRa w) (c.fieldRb w) (c.fieldCount w)

/-- The row of an unused operation code (R76). Under the default map these are the four codes 7, 18, 19 and 25; under another map
the last row stands for every further unused code (log entry 23). -/
def unusedRow (op : BitVec 5) : Instr :=
  if op = 7 then .unusedOp7 else if op = 18 then .unusedOp18 else if op = 19 then .unusedOp19 else .unusedOp25

/-- The instruction of a word, by the operation-code map (R74, R75); total, since unused codes and conditions are rows of their own
(R76, R78). Bits a format does not use take no part (R77). -/
def Config.decode (c : Config) (w : Word) : Instr :=
  match c.operation (c.fieldOp w) with
  | some .nop => .nop
  | some .ld => c.decodeBase w .ldAbs .ldDisp
  | some .ldr => c.decodeRel w .ldr
  | some .st => c.decodeBase w .stAbs .stDisp
  | some .str => c.decodeRel w .str
  | some .la => c.decodeBase w .laAbs .laDisp
  | some .lar => c.decodeRel w .lar
  | some .br => c.decodeBr w
  | some .brl => c.decodeBrl w
  | some .een => .een
  | some .edi => .edi
  | some .add => c.decodeThree w .add
  | some .addi => c.decodeImm w .addi
  | some .sub => c.decodeThree w .sub
  | some .neg => .neg (c.fieldRa w) (c.fieldRc w)
  | some .svi => .svi (c.fieldRa w) (c.fieldRb w)
  | some .ri => .ri (c.fieldRa w) (c.fieldRb w)
  | some .and => c.decodeThree w .and
  | some .andi => c.decodeImm w .andi
  | some .or => c.decodeThree w .or
  | some .ori => c.decodeImm w .ori
  | some .not => .not (c.fieldRa w) (c.fieldRc w)
  | some .shr => c.decodeShift w .shrReg .shrConst
  | some .shra => c.decodeShift w .shraReg .shraConst
  | some .shl => c.decodeShift w .shlReg .shlConst
  | some .shc => c.decodeShift w .shcReg .shcConst
  | some .rfi => .rfi
  | some .stop => .stop
  | none => unusedRow (c.fieldOp w)

/-! ## Words and bytes (R41, R60) -/

/-- The word of four bytes, given in the order of their addresses (R41). -/
def wordOfBytes (o : ByteOrder) (b0 b1 b2 b3 : Byte) : Word :=
  match o with
  | .bigEndian => b0 ++ b1 ++ b2 ++ b3
  | .littleEndian => b3 ++ b2 ++ b1 ++ b0

/-- Bytes given most significant first, in the order of their addresses (R41). -/
def ByteOrder.arrange (o : ByteOrder) (bytes : List Byte) : List Byte :=
  match o with
  | .bigEndian => bytes
  | .littleEndian => bytes.reverse

/-- The bytes of a word in the order of their addresses (R41, R60). -/
def bytesOfWord (o : ByteOrder) (w : Word) : List Byte :=
  o.arrange [w.extractLsb' 24 8, w.extractLsb' 16 8, w.extractLsb' 8 8, w.extractLsb' 0 8]

/-- Why a list of bytes holds no instruction. -/
inductive DecodeError where
  /-- Fewer than four bytes are left (R60). Safe: nothing is read from bytes that are not there. -/
  | truncated
  deriving DecidableEq, Repr

/-- Decode the first instruction of a list of bytes, in the order of their addresses, and give the rest (R60, R80). -/
def Config.decodeBytes (c : Config) : List Byte → Except DecodeError (Instr × List Byte)
  | b0 :: b1 :: b2 :: b3 :: rest => .ok (c.decode (wordOfBytes c.byteOrder b0 b1 b2 b3), rest)
  | _ => .error .truncated

/-! ## The encoder (R62 to R70, R74) -/

/-- A register number as a 5-bit field. -/
def regBits (i : Reg) : BitVec 5 := BitVec.ofFin i

/-- A word that is 0 but for the field `v`, whose lowest bit is `lo`. -/
def putField {n : Nat} (lo : Nat) (v : BitVec n) : Word := v.setWidth 32 <<< lo

/-- The code of an operation: the first row for it (R74). -/
def Config.code (c : Config) (o : Operation) : BitVec 5 :=
  match c.opcodes.find? fun row => row.2 = o with
  | some row => row.1
  | none => 0

/-- The number of a condition (R160). -/
def Config.condNumber (c : Config) (k : Cond) : BitVec 3 :=
  match c.conds.find? fun row => row.2 = k with
  | some row => row.1
  | none => 0

/-- Format 1, all but `op`: ra, rb, c2 (R62). -/
def Config.format1 (c : Config) (ra rb : Reg) (c2 : BitVec 17) : Word :=
  putField c.fields.ra (regBits ra) ||| putField c.fields.rb (regBits rb) ||| putField c.fields.c2 c2

/-- Format 2, all but `op`: ra, c1 (R63). -/
def Config.format2 (c : Config) (ra : Reg) (c1 : BitVec 22) : Word :=
  putField c.fields.ra (regBits ra) ||| putField c.fields.c1 c1

/-- Formats 3 to 9, all but `op`: ra, rb, rc, c3, each unused field 0 (R64 to R70, R77). -/
def Config.format3 (c : Config) (ra rb rc : Reg) (c3 : BitVec 12) : Word :=
  putField c.fields.ra (regBits ra) ||| putField c.fields.rb (regBits rb) ||| putField c.fields.rc (regBits rc) |||
    putField c.fields.c3 c3

/-- A branch, all but `op`: the condition's number in `c3[2:0]` (R65, R66). -/
def Config.formatBranch (c : Config) (ra rb rc : Reg) (cond : BitVec 3) : Word := c.format3 ra rb rc (0#9 ++ cond)

/-- A constant shift, all but `op`: the count in `c3[4:0]` (format 7a, R68). -/
def Config.formatCount (c : Config) (ra rb : Reg) (count : BitVec 5) : Word := c.format3 ra rb 0 (0#7 ++ count)

/-- The operation code of an instruction (R74, R76). -/
def Config.opcode (c : Config) : Instr → BitVec 5
  | .nop => c.code .nop
  | .ldAbs .. | .ldDisp .. => c.code .ld
  | .ldr .. => c.code .ldr
  | .stAbs .. | .stDisp .. => c.code .st
  | .str .. => c.code .str
  | .laAbs .. | .laDisp .. => c.code .la
  | .lar .. => c.code .lar
  | .unusedOp7 => 7
  | .brnv | .br .. | .brzr .. | .brnz .. | .brpl .. | .brmi .. | .brReservedCond => c.code .br
  | .brlnv .. | .brl .. | .brlzr .. | .brlnz .. | .brlpl .. | .brlmi .. | .brlReservedCond => c.code .brl
  | .een => c.code .een
  | .edi => c.code .edi
  | .add .. => c.code .add
  | .addi .. => c.code .addi
  | .sub .. => c.code .sub
  | .neg .. => c.code .neg
  | .svi .. => c.code .svi
  | .ri .. => c.code .ri
  | .unusedOp18 => 18
  | .unusedOp19 => 19
  | .and .. => c.code .and
  | .andi .. => c.code .andi
  | .or .. => c.code .or
  | .ori .. => c.code .ori
  | .not .. => c.code .not
  | .unusedOp25 => 25
  | .shrReg .. | .shrConst .. => c.code .shr
  | .shraReg .. | .shraConst .. => c.code .shra
  | .shlReg .. | .shlConst .. => c.code .shl
  | .shcReg .. | .shcConst .. => c.code .shc
  | .rfi => c.code .rfi
  | .stop => c.code .stop

/-- All but the field `op`, as the assembler writes it (R83: every bit not mentioned is 0). -/
def Config.operands (c : Config) : Instr → Word
  | .ldAbs ra c2 | .stAbs ra c2 | .laAbs ra c2 => c.format1 ra 0 c2
  | .ldDisp ra rb c2 | .stDisp ra rb c2 | .laDisp ra rb c2 => c.format1 ra rb c2
  | .addi ra rb c2 | .ori ra rb c2 | .andi ra rb c2 => c.format1 ra rb c2
  | .ldr ra c1 | .str ra c1 | .lar ra c1 => c.format2 ra c1
  | .neg ra rc | .not ra rc => c.format3 ra 0 rc 0
  | .add ra rb rc | .sub ra rb rc | .and ra rb rc | .or ra rb rc => c.format3 ra rb rc 0
  | .shrReg ra rb rc | .shraReg ra rb rc | .shlReg ra rb rc | .shcReg ra rb rc => c.format3 ra rb rc 0
  | .shrConst ra rb n | .shraConst ra rb n | .shlConst ra rb n | .shcConst ra rb n => c.formatCount ra rb n
  | .brnv => c.formatBranch 0 0 0 (c.condNumber .never)
  | .br rb => c.formatBranch 0 rb 0 (c.condNumber .always)
  | .brzr rb rc => c.formatBranch 0 rb rc (c.condNumber .zero)
  | .brnz rb rc => c.formatBranch 0 rb rc (c.condNumber .nonzero)
  | .brpl rb rc => c.formatBranch 0 rb rc (c.condNumber .plus)
  | .brmi rb rc => c.formatBranch 0 rb rc (c.condNumber .minus)
  | .brReservedCond => c.formatBranch 0 0 0 6
  | .brlnv ra => c.formatBranch ra 0 0 (c.condNumber .never)
  | .brl ra rb => c.formatBranch ra rb 0 (c.condNumber .always)
  | .brlzr ra rb rc => c.formatBranch ra rb rc (c.condNumber .zero)
  | .brlnz ra rb rc => c.formatBranch ra rb rc (c.condNumber .nonzero)
  | .brlpl ra rb rc => c.formatBranch ra rb rc (c.condNumber .plus)
  | .brlmi ra rb rc => c.formatBranch ra rb rc (c.condNumber .minus)
  | .brlReservedCond => c.formatBranch 0 0 0 6
  | .svi ra rb | .ri ra rb => c.format3 ra rb 0 0
  | .nop | .stop | .een | .edi | .rfi => 0
  | .unusedOp7 | .unusedOp18 | .unusedOp19 | .unusedOp25 => 0

/-- A word of an operation code and the rest. -/
def Config.word (c : Config) (op : BitVec 5) (rest : Word) : Word := putField c.fields.op op ||| rest

/-- The word of a well-formed instruction, its unused bits 0 (R77). -/
def Config.encode (c : Config) (i : Instr) : Word := c.word (c.opcode i) (c.operands i)

/-- The four bytes of an instruction in the order of their addresses (R60). -/
def Config.encodeBytes (c : Config) (i : Instr) : List Byte := bytesOfWord c.byteOrder (c.encode i)

/-- The word of the general form `br rb, rc, c3` (R65, R83, R161), `cond` the condition number. -/
def Config.encodeBrGeneral (c : Config) (rb rc : Reg) (cond : BitVec 3) : Word :=
  c.word (c.code .br) (c.formatBranch 0 rb rc cond)

/-- The word of the general form `brl ra, rb, rc, c3` (R66, R83, R162). -/
def Config.encodeBrlGeneral (c : Config) (ra rb rc : Reg) (cond : BitVec 3) : Word :=
  c.word (c.code .brl) (c.formatBranch ra rb rc cond)

/-! ## The default machine -/

/-- `op`, bits 31..27 (R61). -/
def fieldOp (w : Word) : BitVec 5 := config.fieldOp w
/-- `ra`, bits 26..22. -/
def fieldRa (w : Word) : Reg := config.fieldRa w
/-- `rb`, bits 21..17. -/
def fieldRb (w : Word) : Reg := config.fieldRb w
/-- `rc`, bits 16..12. -/
def fieldRc (w : Word) : Reg := config.fieldRc w
/-- `c1`, bits 21..0. -/
def fieldC1 (w : Word) : BitVec 22 := config.fieldC1 w
/-- `c2`, bits 16..0. -/
def fieldC2 (w : Word) : BitVec 17 := config.fieldC2 w
/-- `c3[4:0]`, bits 4..0. -/
def fieldCount (w : Word) : BitVec 5 := config.fieldCount w
/-- `c3[2:0]`, bits 2..0. -/
def fieldCond (w : Word) : BitVec 3 := config.fieldCond w

/-- The instruction of a word under the default encoding. -/
def decodeWord (w : Word) : Instr := config.decode w

/-- The operation code of an instruction under the default map. -/
def opcode (i : Instr) : BitVec 5 := config.opcode i

/-- The word of an instruction under the default encoding. -/
def encode (i : Instr) : Word := config.encode i

/-- The host's view of the decoder: the instruction of the word whose bits are `w`, numbered as spec/opcode_table.json numbers
them. Every row has 32 bits and the spec numbers bit 31 the most significant (00_scope.md R8), so the number is the word; it is
laid out in memory order and given to the decoder. -/
def decodeTableWord (_nbits w : Nat) : Option Instr :=
  match config.decodeBytes (bytesOfWord config.byteOrder (BitVec.ofNat 32 w)) with
  | .ok (i, _) => some i
  | .error _ => none

/-- The bits of an instruction's word that neither select its row nor belong to a field it uses: column `ignored` of
spec/opcode_table.json (R75, R77). -/
def ignoredBits : Instr → Word
  | .ldAbs .. | .ldDisp .. | .ldr .. | .stAbs .. | .stDisp .. | .str .. | .laAbs .. | .laDisp .. | .lar .. => 0
  | .addi .. | .ori .. | .andi .. => 0
  | .add .. | .sub .. | .and .. | .or .. => 0x00000FFF#32
  | .neg .. | .not .. => 0x003E0FFF#32
  | .shrReg .. | .shraReg .. | .shlReg .. | .shcReg .. => 0x00000FE0#32
  | .shrConst .. | .shraConst .. | .shlConst .. | .shcConst .. => 0x0001FFE0#32
  | .brnv => 0x07FFFFF8#32
  | .br .. => 0x07C1FFF8#32
  | .brzr .. | .brnz .. | .brpl .. | .brmi .. => 0x07C00FF8#32
  | .brReservedCond => 0x07FFFFF9#32
  | .brlnv .. => 0x003FFFF8#32
  | .brl .. => 0x0001FFF8#32
  | .brlzr .. | .brlnz .. | .brlpl .. | .brlmi .. => 0x00000FF8#32
  | .brlReservedCond => 0x07FFFFF9#32
  | .svi .. | .ri .. => 0x0001FFFF#32
  | .nop | .stop | .een | .edi | .rfi => 0x07FFFFFF#32
  | .unusedOp7 | .unusedOp18 | .unusedOp19 | .unusedOp25 => 0x07FFFFFF#32

end Sys2Proof
end

