-- ==== Sys2Proof/Machine/State.lean ====
section
/-! DEFINITION. The state of the SRC (10_state.md), the reasons a step can stop (60_exceptions.md R212), and the state after
reset (10_state.md R36, 70_reset_and_hazards.md R240). State is plain data. -/

namespace Sys2Proof.Machine

/-- Memory's contents: (address, byte) pairs, one for every byte that the loader or a store has written, in the canonical form
`Memory.wf` of Machine/Ops.lean. A byte that is not listed has no known value: it reads as the free value `unlistedByte`. -/
abbrev Memory := List Host.Cell

/-- An interrupt request as the environment presents it: 16 bits of information and an 8-bit vector number (60_exceptions.md
R213). -/
structure IrqRequest where
  info : Half
  vect : Byte
  deriving DecidableEq, Repr

/-- The state of the machine (10_state.md, the tuple at its head), with the environment's interrupt interface (R32). -/
structure State where
  /-- R[0] to R[31], none hardwired (R20, R21). -/
  r : Vector Word 32
  /-- PC: the address of the next instruction; inside an instruction, its own address plus 4 (R22, R23). -/
  pc : Word
  /-- Run: the machine executes only while it is 1 (R26). -/
  run : Bool
  /-- IE, the overall exception enable bit (R27). -/
  ie : Bool
  /-- IPC, where the interrupted program resumes (R28). -/
  ipc : Word
  /-- II, the interrupt information register (R29). -/
  ii : Half
  /-- Mem (R31). -/
  mem : Memory
  /-- The environment's answers at the coming instruction boundaries, soonest first; none when the list has run out (R32,
  60_exceptions.md R213). Log entry 6. -/
  irq : List (Option IrqRequest)
  /-- The acknowledgement line: 1 after a step that accepted a request, 0 after every other step (R32, R213, R215). Log entry 7. -/
  iack : Bool
  /-- THE MODEL'S OWN: how many free values `svi` has drawn (44_miscellaneous.md R195). Log entry 12. -/
  draws : Nat
  deriving DecidableEq, Repr

/-- Why a step has no next state: the model faults of 60_exceptions.md R212, and the halt of R214. None is an event of the
hardware, and all are safe: the model claims nothing of what a real SRC does there. A model fault carries, after its operand, the
state it leaves: the column "state changed before the fault" of R212 (log entry 15). -/
inductive Fault where
  /-- `step`, when Run is 0: the machine has no step, the run is over (R10 (c), R214). Safe. Log entry 8. -/
  | halted
  /-- The fetch, when PC is not a multiple of 4 (R44); nothing is changed. Safe. -/
  | misalignedFetch (pc : Word) (left : State)
  /-- The fetch, `ld`, `ldr`, `st`, `str`, when `MEM_MAP` has no memory with the needed access there (R47); PC is
  advanced for a data access, and nothing else is changed. Safe. -/
  | noMemory (addr : Word) (left : State)
  /-- `ld`, `ldr`, `st`, `str`, when the address is not a multiple of 4 (R43); PC is advanced, nothing else is changed. Safe. -/
  | misalignedData (addr : Word) (left : State)
  /-- The operation codes 7, 18, 19 and 25 (R76); PC is advanced, nothing else is changed. Safe. -/
  | illegalOpcode (word : Word) (left : State)
  /-- `br` and `brl` with condition 6 or 7 (R78); PC is advanced, nothing else is changed. Safe. -/
  | reservedCondition (word : Word) (left : State)
  /-- `svi` with ra = rb (R195); PC is advanced, nothing else is changed. Safe. -/
  | conflictingWrite (word : Word) (left : State)
  deriving DecidableEq, Repr

/-- Why an instruction has no meaning here. -/
inductive Refusal where
  /-- An arm of `exec` that has no meaning yet. Safe. No arm is left. -/
  | notModelled (mnemonic : String)
  /-- An access at `addr`, in a region that `MEM_MAP` calls a device: "A platform that maps a device into MEM_MAP defines that
  device's read and write side effects", and the spec gives none (20_memory.md R46, R47). Raised by the fetch and by `ld`, `ldr`,
  `st`, `str`; never under the default map. Safe. -/
  | deviceAccess (addr : Word)
  deriving DecidableEq, Repr

/-- The state right after reset (10_state.md R36, 70_reset_and_hazards.md R240): PC, Run and IE as the spec says, and no byte of
memory written (`State.boot` adds the image).
DESIGN CHOICE, unsafe (log entries 6, 7, 9, 10, 12): R[0..31], IPC, II, which the spec leaves unspecified, are 0, no interrupt request is listed, the acknowledgement line and the counter of free values are 0. -/
def State.reset : State where
  r := Vector.replicate 32 config.resetGpr
  pc := config.resetPc
  run := true
  ie := config.resetIe
  ipc := 0
  ii := 0
  mem := []
  irq := []
  iack := false
  draws := 0

end Sys2Proof.Machine
end

