-- ==== Sys2Proof/Machine/Ops.lean ====
section
/-! DEFINITION. The named operations over registers, memory and control state that the instructions share, interrupt entry and
return, the fetch, and the step loop around an instruction (00_scope.md R9, R10; 20_memory.md; 60_exceptions.md). -/

namespace Sys2Proof.Machine

/-- The outcome of a part of a step: a value to go on with, a model fault, or a refusal. -/
abbrev Result (α : Type) := Host.Outcome α Fault Refusal

/-- Go on with the value of the first part, or stop where it stops. -/
def andThen {α β : Type} (x : Result α) (f : α → Result β) : Result β :=
  match x with
  | .next a => f a
  | .fault e => .fault e
  | .refused e => .refused e

/-! ## Registers and control state (R9) -/

/-- `R[i]` (R9); R[0] is like any other (10_state.md R21). -/
def State.reg (s : State) (i : Reg) : Word := s.r[i.val]

/-- `R[i] <- v` (R9). -/
def State.setReg (s : State) (i : Reg) (v : Word) : State := { s with r := s.r.set i.val v }

/-- `PC <- v` (R9). -/
def State.setPc (s : State) (v : Word) : State := { s with pc := v }

/-- `Run <- b` (10_state.md R26). -/
def State.setRun (s : State) (b : Bool) : State := { s with run := b }

/-- `IE <- b` (10_state.md R27). -/
def State.setIe (s : State) (b : Bool) : State := { s with ie := b }

/-- `IPC <- v` (10_state.md R28). -/
def State.setIpc (s : State) (v : Word) : State := { s with ipc := v }

/-- `II <- v` (10_state.md R29). -/
def State.setIi (s : State) (v : Half) : State := { s with ii := v }

/-- Replace the contents of memory. -/
def State.setMem (s : State) (m : Memory) : State := { s with mem := m }

/-- Count one more free value as drawn. -/
def State.countDraw (s : State) : State := { s with draws := s.draws + 1 }

/-! ## Bytes of memory (20_memory.md R40)

The list holds the bytes that have been written. It is canonical when its addresses rise strictly below 2^32, so that memories in
which the same bytes have been written are equal data. -/

/-- What a byte that nothing has written reads as: a FREE VALUE of its address, of which nothing is known (10_state.md R36, "it must
not assume 0"; 93_implementation_defined.md U8). Log entry 10. -/
def unlistedByte (a : Nat) : Byte := Config.freeByte a

/-- The byte written at address `a`, if one has been: the first entry for it. -/
def Memory.written : Memory → Nat → Option Byte
  | [], _ => none
  | (b, v) :: rest, a => if b = a then some v else Memory.written rest a

/-- The byte at address `a`. -/
def Memory.read (m : Memory) (a : Nat) : Byte :=
  match m.written a with
  | some v => v
  | none => unlistedByte a

/-- Store a byte: its entry goes where the order of addresses has it, in place of an entry for the same address. -/
def Memory.write : Memory → Nat → Byte → Memory
  | [], a, v => [(a, v)]
  | (b, w) :: rest, a, v =>
    if a < b then (a, v) :: (b, w) :: rest
    else if a = b then (a, v) :: rest
    else (b, w) :: Memory.write rest a v

/-- The canonical form, from address `lo` on. -/
def Memory.wfFrom (lo : Nat) : Memory → Bool
  | [] => true
  | (a, _) :: rest => decide (lo ≤ a) && decide (a < 2 ^ 32) && Memory.wfFrom (a + 1) rest

/-- The canonical form of memory's contents. -/
def Memory.wf (m : Memory) : Bool := Memory.wfFrom 0 m

/-- `Mem[a]`: the byte at a 32-bit address (00_scope.md R7). -/
def State.byte (s : State) (a : Word) : Byte := s.mem.read a.toNat

/-! ## Words of memory (R41, R42) -/

/-- The word at `a`: four bytes, their addresses modulo 2^32 (R41, R42). -/
def readWord (o : ByteOrder) (m : Memory) (a : Word) : Word :=
  wordOfBytes o (m.read a.toNat) (m.read (a + 1).toNat) (m.read (a + 2).toNat) (m.read (a + 3).toNat)

/-- Store bytes from address `a` on, addresses modulo 2^32. -/
def writeBytes (m : Memory) (a : Word) : List Byte → Memory
  | [] => m
  | b :: rest => writeBytes (m.write a.toNat b) (a + 1) rest

/-- Store the four bytes of `v` at `a` (R42). -/
def writeWord (o : ByteOrder) (m : Memory) (a v : Word) : Memory := writeBytes m a (bytesOfWord o v)

/-- `addr[1:0] = 0` (R42). -/
def aligned (a : Word) : Bool := a.extractLsb' 0 2 == 0#2

/-- What `MEM_MAP` has at an address for one kind of access (R47). -/
inductive Presence where
  | memory
  | device
  | absent
  deriving DecidableEq, Repr

/-- The first region of the map that holds the address and permits the access, if any (R47). The address asked about is the word's
own, as in R42. -/
def presence (permits : Region → Bool) (map : List Region) (a : Word) : Presence :=
  match map.find? fun g => decide (g.base ≤ a.toNat) && decide (a.toNat < g.base + g.size) && permits g with
  | some g => if g.kind = .memory then .memory else .device
  | none => .absent

/-- The checks before a word access, in the order of R42 and R218: alignment (under `MISALIGNED = fault`), then the map. `misalignedAt`
is the fault's name: the fetch has its own (R42, R44). A fault leaves the state as the access found it (R43, R212). -/
def checkAccess (c : Config) (permits : Region → Bool) (misalignedAt : Word → State → Fault) (s : State) (a : Word) : Result Unit :=
  if c.misaligned = .fault ∧ aligned a = false then .fault (misalignedAt a s)
  else match presence permits c.memMap a with
    | .memory => .next ()
    | .device => .refused (.deviceAccess a)
    | .absent => .fault (.noMemory a s)

/-- `MemRead(addr, 4)` (R42). -/
def memRead (c : Config) (misalignedAt : Word → State → Fault) (s : State) (a : Word) : Result Word :=
  andThen (checkAccess c (·.readable) misalignedAt s a) fun _ => .next (readWord c.byteOrder s.mem a)

/-- `MemWrite(addr, 4, v)` (R42). -/
def memWrite (c : Config) (s : State) (a v : Word) : Result State :=
  andThen (checkAccess c (·.writable) .misalignedData s a) fun _ => .next (s.setMem (writeWord c.byteOrder s.mem a v))

/-- `R[ra] <- MemRead(a, 4)`: what `ld` and `ldr` share (40_load_store.md R102, R103). -/
def loadInto (c : Config) (ra : Reg) (a : Word) (s : State) : Result State :=
  andThen (memRead c .misalignedData s a) fun v => .next (s.setReg ra v)

/-- `MemWrite(a, 4, R[ra])`: what `st` and `str` share (R104, R105). -/
def storeFrom (c : Config) (ra : Reg) (a : Word) (s : State) : Result State := memWrite c s a (s.reg ra)

/-! ## Interrupts (60_exceptions.md R213 to R219, 44_miscellaneous.md R194 to R196) -/

/-- The entry address of a vector number, `vect * 16` (R216). -/
def entryAddress (vect : Byte) : Word := 0#20 ++ vect ++ 0#4

/-- TAKING AN INTERRUPT, the SRC's one exception (R215): IPC holds the PC from before, II the device's information, interrupts are
disabled, control goes to the entry address, and the request is acknowledged. Nothing else changes. -/
def interruptEntry (q : IrqRequest) (s : State) : State :=
  { s with ipc := s.pc, ii := q.info, ie := false, pc := entryAddress q.vect, iack := true }

/-- RETURNING FROM ONE, `rfi` (R194, R219): PC from IPC, interrupts enabled, both together. -/
def interruptReturn (s : State) : State := { s with pc := s.ipc, ie := true }

/-- Bits 31..16 of R[ra] after `svi` (R195, `SVI_UPPER`): a free value by default. -/
def sviUpperHalf (c : Config) (ra : Reg) (s : State) : Half :=
  match c.sviUpper with
  | .anyValue => Config.freeUpper s.draws
  | .unchanged => (s.reg ra).extractLsb' 16 16
  | .zero => 0

/-- `svi` (R195) with different registers: II into the low half of R[ra], IPC into R[rb]. -/
def saveInterruptState (c : Config) (ra rb : Reg) (s : State) : State :=
  ((s.setReg ra (sviUpperHalf c ra s ++ s.ii)).setReg rb s.ipc).countDraw

/-- `ri` (R196): II from the low half of R[ra], IPC from R[rb]. -/
def restoreInterruptState (ra rb : Reg) (s : State) : State :=
  (s.setIi ((s.reg ra).extractLsb' 0 16)).setIpc (s.reg rb)

/-! ## Illegal words (30_encoding.md R76, R78) -/

/-- An unused operation code or condition number, under `ILLEGAL`: the fault `e`, which leaves the state as the fetch left it. -/
def illegalWord (c : Config) (e : Fault) : Result State :=
  match c.illegal with
  | .fault => .fault e

/-! ## The step loop around an instruction (R214) -/

/-- The environment's answer for this instruction boundary (10_state.md R32): the head of its list, none when that has run out. -/
def State.presented (s : State) : Option IrqRequest :=
  match s.irq with
  | [] => none
  | q :: _ => q

/-- The boundary goes by: its answer is used up, and the acknowledgement line rests. -/
def State.passBoundary (s : State) : State := { s with irq := s.irq.tail, iack := false }

/-- The fetch: `IR <- MemRead(PC, 4)` with the fetch's own fault name (R44, R214). -/
def fetch (c : Config) (s : State) : Result Word := memRead c .misalignedFetch s s.pc

/-- `PC <- (PC + 4) mod 2^32` (10_state.md R23, R24). -/
def State.advancePc (s : State) : State := s.setPc (s.pc + 4)

/-- A fault that carries the instruction word (R212) carries the word that was fetched. -/
def Fault.withWord (w : Word) : Fault → Fault
  | .illegalOpcode _ s => .illegalOpcode w s
  | .reservedCondition _ s => .reservedCondition w s
  | .conflictingWrite _ s => .conflictingWrite w s
  | .halted => .halted
  | .misalignedFetch pc s => .misalignedFetch pc s
  | .noMemory a s => .noMemory a s
  | .misalignedData a s => .misalignedData a s

/-- The state that a model fault leaves (R212); the halt is no fault of R212, and there the state is the one it met (R10 (c)). -/
def Fault.left : Fault → Option State
  | .illegalOpcode _ s => some s
  | .reservedCondition _ s => some s
  | .conflictingWrite _ s => some s
  | .halted => none
  | .misalignedFetch _ s => some s
  | .noMemory _ s => some s
  | .misalignedData _ s => some s

/-- An instruction's outcome, with the fetched word in the faults that carry one (log entry 14). -/
def recordWord (w : Word) (x : Result State) : Result State :=
  match x with
  | .next s => .next s
  | .fault e => .fault (e.withWord w)
  | .refused e => .refused e

/-- `fetch; PC <- PC + 4; execute(IR)` (R214), the last part of the step loop. -/
def runInstruction (c : Config) (execute : Instr → State → Result State) (s : State) : Result State :=
  andThen (fetch c s) fun w => recordWord w (execute (c.decode w) s.advancePc)

/-- `step(state, env)` of R214: halted, interrupt entry, or one instruction, in this order (R218). -/
def stepUnder (c : Config) (execute : Instr → State → Result State) (env : Option IrqRequest) (s : State) : Result State :=
  if s.run = false then .fault .halted
  else match s.ie, env with
    | true, some q => .next (interruptEntry q s)
    | _, _ => runInstruction c execute s

/-- One step, the environment's answer taken from the state. -/
def machineStep (c : Config) (execute : Instr → State → Result State) (s : State) : Result State :=
  stepUnder c execute s.presented s.passBoundary

/-! ## Placing an instruction where the next fetch is (for the host's `withFetchWord`, log entry 16) -/

/-- The state with `w` stored at PC and nothing in the way of fetching it: Run is 1, PC is a multiple of 4 (rounded down if it was
not), and a request that would be accepted at this boundary is withdrawn. -/
def placeWord (c : Config) (w : Word) (s : State) : State :=
  let pc := (s.pc.extractLsb' 2 30 ++ 0#2 : Word)
  let irq := if s.ie then (match s.irq with | some _ :: rest => none :: rest | l => l) else s.irq
  { s with run := true, pc := pc, irq := irq, mem := writeWord c.byteOrder s.mem pc w }

end Sys2Proof.Machine
end

