-- ==== Sys2Proof/Machine/Operands.lean ====
section
/-! DEFINITION. The operand forms of the SRC: the constants, the two effective addresses, the shift count
(30_encoding.md R71 to R73; 40_load_store.md R100, R101, R108; 42_shift.md R140). -/

namespace Sys2Proof.Machine

/-- `sext_32(c2, 17)`: the constant of the absolute, displacement and immediate forms, always sign-extended (R71). -/
def constC2 (c2 : BitVec 17) : Word := c2.signExtend 32

/-- `sext_32(c1, 22)`: the constant of the relative forms (R72). -/
def constC1 (c1 : BitVec 22) : Word := c1.signExtend 32

/-- `disp` (R100): the constant alone when the register NUMBER rb is 0, and then R[0] is not read; else R[rb] plus the constant,
modulo 2^32. -/
def dispAddress (s : State) (rb : Reg) (c2 : BitVec 17) : Word :=
  if rb = 0 then constC2 c2 else s.reg rb + constC2 c2

/-- The absolute address: `disp` with the rb field 0 (R84, R100). -/
def absAddress (s : State) (c2 : BitVec 17) : Word := dispAddress s 0 c2

/-- `rel` (R101): PC, which is the instruction's address plus 4, plus the constant, modulo 2^32. -/
def relAddress (s : State) (c1 : BitVec 22) : Word := s.pc + constC1 c1

/-- The register shift count, `R[rc][4:0]` (R140): the bits above are ignored, so it is 0 to 31. -/
def registerCount (s : State) (rc : Reg) : Nat := ((s.reg rc).extractLsb' 0 5).toNat

/-- The constant shift count, `c3[4:0]` (R140). -/
def constantCount (count : BitVec 5) : Nat := count.toNat

end Sys2Proof.Machine
end

