-- ==== Sys2Proof/Machine/Arithmetic.lean ====
section
/-! DEFINITION. Arithmetic and logic (41_arithmetic.md R120 to R129). Every source is read before the destination is written. -/

namespace Sys2Proof.Machine

/-- `add` (R121): modulo 2^32, no flag, no trap (R120). -/
def execAdd (ra rb rc : Reg) (s : State) : Result State :=
  .next (s.setReg ra (s.reg rb + s.reg rc))

/-- `addi` (R122): rb = 0 reads R[0]. -/
def execAddi (ra rb : Reg) (c2 : BitVec 17) (s : State) : Result State :=
  .next (s.setReg ra (s.reg rb + constC2 c2))

/-- `sub` (R123): rb minus rc. -/
def execSub (ra rb rc : Reg) (s : State) : Result State :=
  .next (s.setReg ra (s.reg rb - s.reg rc))

/-- `neg` (R124). -/
def execNeg (ra rc : Reg) (s : State) : Result State :=
  .next (s.setReg ra (0 - s.reg rc))

/-- `or` (R125). -/
def execOr (ra rb rc : Reg) (s : State) : Result State :=
  .next (s.setReg ra (s.reg rb ||| s.reg rc))

/-- `ori` (R126): the constant is sign-extended. -/
def execOri (ra rb : Reg) (c2 : BitVec 17) (s : State) : Result State :=
  .next (s.setReg ra (s.reg rb ||| constC2 c2))

/-- `and` (R127). -/
def execAnd (ra rb rc : Reg) (s : State) : Result State :=
  .next (s.setReg ra (s.reg rb &&& s.reg rc))

/-- `andi` (R128): the constant is sign-extended. -/
def execAndi (ra rb : Reg) (c2 : BitVec 17) (s : State) : Result State :=
  .next (s.setReg ra (s.reg rb &&& constC2 c2))

/-- `not` (R129): every one of the 32 bits inverted. -/
def execNot (ra rc : Reg) (s : State) : Result State :=
  .next (s.setReg ra (~~~(s.reg rc)))


end Sys2Proof.Machine
end

