-- ==== Sys2Proof/Machine/Flags.lean ====
section
/-! DEFINITION. The SRC has no flags: no instruction sets one (10_state.md R25). In their place stand the branch conditions, each a
test of the whole of one register (43_branch.md R160, R175). -/

namespace Sys2Proof

/-- Whether a condition holds of the content of R[rc]; `never` and `always` do not look at it, and plus includes zero (R160,
90_conflicts.md C1). -/
def Cond.holds : Cond → Word → Bool
  | .never, _ => false
  | .always, _ => true
  | .zero, v => v == 0
  | .nonzero, v => v != 0
  | .plus, v => v.msb == false
  | .minus, v => v.msb == true

end Sys2Proof

namespace Sys2Proof.Machine

/-- `if cond then PC <- R[rb]`, else PC stays (R161). -/
def branchIf (k : Cond) (rb rc : Reg) (s : State) : State :=
  if k.holds (s.reg rc) then s.setPc (s.reg rb) else s

/-- `R[ra] <- PC` always; `if cond then PC <- R[rb]`, both sources read before R[ra] is written (R162, 00_scope.md R9). -/
def branchLinkIf (k : Cond) (ra rb rc : Reg) (s : State) : State :=
  (branchIf k rb rc s).setReg ra s.pc

end Sys2Proof.Machine
end

