-- ==== Sys2Proof/Machine/Branch.lean ====
section
/-! DEFINITION. Branches (43_branch.md R160 to R177): `br` and `brl` in the forms of their conditions. There is no delay slot
(R176): PC is the target when the step ends. -/

namespace Sys2Proof.Machine

/-- `brnv` (R166): nothing is written, no register read. -/
def execBrnv (s : State) : Result State :=
  .next (branchIf .never 0 0 s)

/-- `br rb` (R163): the rc field is not used. -/
def execBr (rb : Reg) (s : State) : Result State :=
  .next (branchIf .always rb 0 s)

/-- `brzr rb, rc` (R167). -/
def execBrzr (rb rc : Reg) (s : State) : Result State :=
  .next (branchIf .zero rb rc s)

/-- `brnz rb, rc` (R169). -/
def execBrnz (rb rc : Reg) (s : State) : Result State :=
  .next (branchIf .nonzero rb rc s)

/-- `brpl rb, rc` (R171). -/
def execBrpl (rb rc : Reg) (s : State) : Result State :=
  .next (branchIf .plus rb rc s)

/-- `brmi rb, rc` (R173). -/
def execBrmi (rb rc : Reg) (s : State) : Result State :=
  .next (branchIf .minus rb rc s)

/-- A `br` word with condition 6 or 7 (30_encoding.md R78): the model fault ReservedCondition. -/
def execBrReservedCond (s : State) : Result State :=
  illegalWord config (.reservedCondition (encode .brReservedCond) s)

/-- `brlnv ra` (R165): PC into R[ra], no branch. -/
def execBrlnv (ra : Reg) (s : State) : Result State :=
  .next (branchLinkIf .never ra 0 0 s)

/-- `brl ra, rb` (R164): the old R[rb] is the target. -/
def execBrl (ra rb : Reg) (s : State) : Result State :=
  .next (branchLinkIf .always ra rb 0 s)

/-- `brlzr ra, rb, rc` (R168). -/
def execBrlzr (ra rb rc : Reg) (s : State) : Result State :=
  .next (branchLinkIf .zero ra rb rc s)

/-- `brlnz ra, rb, rc` (R170). -/
def execBrlnz (ra rb rc : Reg) (s : State) : Result State :=
  .next (branchLinkIf .nonzero ra rb rc s)

/-- `brlpl ra, rb, rc` (R172). -/
def execBrlpl (ra rb rc : Reg) (s : State) : Result State :=
  .next (branchLinkIf .plus ra rb rc s)

/-- `brlmi ra, rb, rc` (R174). -/
def execBrlmi (ra rb rc : Reg) (s : State) : Result State :=
  .next (branchLinkIf .minus ra rb rc s)

/-- A `brl` word with condition 6 or 7 (R78): the model fault ReservedCondition; the link is not written. -/
def execBrlReservedCond (s : State) : Result State :=
  illegalWord config (.reservedCondition (encode .brlReservedCond) s)


end Sys2Proof.Machine
end

