-- ==== Sys2Proof/Machine/LoadStore.lean ====
section
/-! DEFINITION. Load and store (40_load_store.md). The state an instruction is given is the one after the fetch: `s.pc` is
the address of the instruction plus 4 (10_state.md R23). -/

namespace Sys2Proof.Machine

/-- `ld ra, c2` (R102). -/
def execLdAbs (ra : Reg) (c2 : BitVec 17) (s : State) : Result State :=
  loadInto config ra (absAddress s c2) s

/-- `ld ra, c2(rb)` (R102): the address uses the old R[rb]. -/
def execLdDisp (ra rb : Reg) (c2 : BitVec 17) (s : State) : Result State :=
  loadInto config ra (dispAddress s rb c2) s

/-- `ldr ra, c1` (R103). -/
def execLdr (ra : Reg) (c1 : BitVec 22) (s : State) : Result State :=
  loadInto config ra (relAddress s c1) s

/-- `st ra, c2` (R104): ra is the source. -/
def execStAbs (ra : Reg) (c2 : BitVec 17) (s : State) : Result State :=
  storeFrom config ra (absAddress s c2) s

/-- `st ra, c2(rb)` (R104). -/
def execStDisp (ra rb : Reg) (c2 : BitVec 17) (s : State) : Result State :=
  storeFrom config ra (dispAddress s rb c2) s

/-- `str ra, c1` (R105). -/
def execStr (ra : Reg) (c1 : BitVec 22) (s : State) : Result State :=
  storeFrom config ra (relAddress s c1) s

/-- `la ra, c2` (R106): memory is not accessed. -/
def execLaAbs (ra : Reg) (c2 : BitVec 17) (s : State) : Result State :=
  .next (s.setReg ra (absAddress s c2))

/-- `la ra, c2(rb)` (R106). -/
def execLaDisp (ra rb : Reg) (c2 : BitVec 17) (s : State) : Result State :=
  .next (s.setReg ra (dispAddress s rb c2))

/-- `lar ra, c1` (R107). -/
def execLar (ra : Reg) (c1 : BitVec 22) (s : State) : Result State :=
  .next (s.setReg ra (relAddress s c1))


end Sys2Proof.Machine
end

