-- ==== Sys2Proof/Machine/Miscellaneous.lean ====
section
/-! DEFINITION. No operation, halt, interrupt control (44_miscellaneous.md R190 to R197; none is privileged, 60_exceptions.md R222),
and the unused operation codes (30_encoding.md R76). -/

namespace Sys2Proof.Machine

/-- `nop` (R190): PC was already advanced by the fetch. -/
def execNop (s : State) : Result State := .next s

/-- `stop` (R191): Run <- 0. -/
def execStop (s : State) : Result State := .next (s.setRun false)

/-- `een` (R192): IE <- 1. -/
def execEen (s : State) : Result State := .next (s.setIe true)

/-- `edi` (R193): IE <- 0. -/
def execEdi (s : State) : Result State := .next (s.setIe false)

/-- `rfi` (R194): PC <- IPC; IE <- 1. -/
def execRfi (s : State) : Result State := .next (interruptReturn s)

/-- `svi ra, rb` (R195); with ra = rb two different values would go to one register: the model fault ConflictingWrite. -/
def execSvi (ra rb : Reg) (s : State) : Result State :=
  if ra = rb then .fault (.conflictingWrite (encode (.svi ra rb)) s) else .next (saveInterruptState config ra rb s)

/-- `ri ra, rb` (R196); ra = rb is allowed. -/
def execRi (ra rb : Reg) (s : State) : Result State := .next (restoreInterruptState ra rb s)

/-- Operation code 7 (30_encoding.md R76): the model fault IllegalOpcode. -/
def execUnusedOp7 (s : State) : Result State := illegalWord config (.illegalOpcode (encode .unusedOp7) s)

/-- Operation code 18 (30_encoding.md R76): the model fault IllegalOpcode. -/
def execUnusedOp18 (s : State) : Result State := illegalWord config (.illegalOpcode (encode .unusedOp18) s)

/-- Operation code 19 (30_encoding.md R76): the model fault IllegalOpcode. -/
def execUnusedOp19 (s : State) : Result State := illegalWord config (.illegalOpcode (encode .unusedOp19) s)

/-- Operation code 25 (30_encoding.md R76): the model fault IllegalOpcode. -/
def execUnusedOp25 (s : State) : Result State := illegalWord config (.illegalOpcode (encode .unusedOp25) s)


end Sys2Proof.Machine
end

