-- ==== Sys2Proof/Machine/Shift.lean ====
section
/-! DEFINITION. Shifts (42_shift.md R140 to R144), each with a register count and a constant count, 0 to 31. -/

namespace Sys2Proof.Machine

/-- Shift right logical by `n` (R141): zeros enter at the left. -/
def shiftRightLogical (v : Word) (n : Nat) : Word := v >>> n

/-- Shift right arithmetic by `n` (R142): copies of bit 31 enter at the left. -/
def shiftRightArith (v : Word) (n : Nat) : Word := v.sshiftRight n

/-- Shift left by `n` (R143): zeros enter at the right. -/
def shiftLeft (v : Word) (n : Nat) : Word := v <<< n

/-- Rotate left by `n`, 0 to 31 (R144): the bits that leave at the top re-enter at the bottom; n = 0 copies. -/
def shiftCircular (v : Word) (n : Nat) : Word :=
  if n = 0 then v else (v <<< n) ||| (v >>> (32 - n))

/-- `shr ra, rb, rc` (R141). -/
def execShrReg (ra rb rc : Reg) (s : State) : Result State :=
  .next (s.setReg ra (shiftRightLogical (s.reg rb) (registerCount s rc)))

/-- `shr ra, rb, c3` (R141). -/
def execShrConst (ra rb : Reg) (count : BitVec 5) (s : State) : Result State :=
  .next (s.setReg ra (shiftRightLogical (s.reg rb) (constantCount count)))

/-- `shra ra, rb, rc` (R142). -/
def execShraReg (ra rb rc : Reg) (s : State) : Result State :=
  .next (s.setReg ra (shiftRightArith (s.reg rb) (registerCount s rc)))

/-- `shra ra, rb, c3` (R142). -/
def execShraConst (ra rb : Reg) (count : BitVec 5) (s : State) : Result State :=
  .next (s.setReg ra (shiftRightArith (s.reg rb) (constantCount count)))

/-- `shl ra, rb, rc` (R143). -/
def execShlReg (ra rb rc : Reg) (s : State) : Result State :=
  .next (s.setReg ra (shiftLeft (s.reg rb) (registerCount s rc)))

/-- `shl ra, rb, c3` (R143). -/
def execShlConst (ra rb : Reg) (count : BitVec 5) (s : State) : Result State :=
  .next (s.setReg ra (shiftLeft (s.reg rb) (constantCount count)))

/-- `shc ra, rb, rc` (R144). -/
def execShcReg (ra rb rc : Reg) (s : State) : Result State :=
  .next (s.setReg ra (shiftCircular (s.reg rb) (registerCount s rc)))

/-- `shc ra, rb, c3` (R144). -/
def execShcConst (ra rb : Reg) (count : BitVec 5) (s : State) : Result State :=
  .next (s.setReg ra (shiftCircular (s.reg rb) (constantCount count)))


end Sys2Proof.Machine
end

