-- ==== Sys2Proof/Machine/Dispatch.lean ====
section
/-! DEFINITION. The meaning of every instruction: one arm per constructor of Instr, each one direct call. -/

namespace Sys2Proof.Machine

/-- What an instruction does to the state after its fetch. -/
def exec (i : Instr) (s : State) : Host.Outcome State Fault Refusal :=
  match i with
  | .ldAbs ra c2 => Sys2Proof.Machine.execLdAbs ra c2 s
  | .ldDisp ra rb c2 => Sys2Proof.Machine.execLdDisp ra rb c2 s
  | .ldr ra c1 => Sys2Proof.Machine.execLdr ra c1 s
  | .stAbs ra c2 => Sys2Proof.Machine.execStAbs ra c2 s
  | .stDisp ra rb c2 => Sys2Proof.Machine.execStDisp ra rb c2 s
  | .str ra c1 => Sys2Proof.Machine.execStr ra c1 s
  | .laAbs ra c2 => Sys2Proof.Machine.execLaAbs ra c2 s
  | .laDisp ra rb c2 => Sys2Proof.Machine.execLaDisp ra rb c2 s
  | .lar ra c1 => Sys2Proof.Machine.execLar ra c1 s
  | .add ra rb rc => Sys2Proof.Machine.execAdd ra rb rc s
  | .addi ra rb c2 => Sys2Proof.Machine.execAddi ra rb c2 s
  | .sub ra rb rc => Sys2Proof.Machine.execSub ra rb rc s
  | .neg ra rc => Sys2Proof.Machine.execNeg ra rc s
  | .or ra rb rc => Sys2Proof.Machine.execOr ra rb rc s
  | .ori ra rb c2 => Sys2Proof.Machine.execOri ra rb c2 s
  | .and ra rb rc => Sys2Proof.Machine.execAnd ra rb rc s
  | .andi ra rb c2 => Sys2Proof.Machine.execAndi ra rb c2 s
  | .not ra rc => Sys2Proof.Machine.execNot ra rc s
  | .shrReg ra rb rc => Sys2Proof.Machine.execShrReg ra rb rc s
  | .shrConst ra rb count => Sys2Proof.Machine.execShrConst ra rb count s
  | .shraReg ra rb rc => Sys2Proof.Machine.execShraReg ra rb rc s
  | .shraConst ra rb count => Sys2Proof.Machine.execShraConst ra rb count s
  | .shlReg ra rb rc => Sys2Proof.Machine.execShlReg ra rb rc s
  | .shlConst ra rb count => Sys2Proof.Machine.execShlConst ra rb count s
  | .shcReg ra rb rc => Sys2Proof.Machine.execShcReg ra rb rc s
  | .shcConst ra rb count => Sys2Proof.Machine.execShcConst ra rb count s
  | .brnv => Sys2Proof.Machine.execBrnv s
  | .br rb => Sys2Proof.Machine.execBr rb s
  | .brzr rb rc => Sys2Proof.Machine.execBrzr rb rc s
  | .brnz rb rc => Sys2Proof.Machine.execBrnz rb rc s
  | .brpl rb rc => Sys2Proof.Machine.execBrpl rb rc s
  | .brmi rb rc => Sys2Proof.Machine.execBrmi rb rc s
  | .brReservedCond => Sys2Proof.Machine.execBrReservedCond s
  | .brlnv ra => Sys2Proof.Machine.execBrlnv ra s
  | .brl ra rb => Sys2Proof.Machine.execBrl ra rb s
  | .brlzr ra rb rc => Sys2Proof.Machine.execBrlzr ra rb rc s
  | .brlnz ra rb rc => Sys2Proof.Machine.execBrlnz ra rb rc s
  | .brlpl ra rb rc => Sys2Proof.Machine.execBrlpl ra rb rc s
  | .brlmi ra rb rc => Sys2Proof.Machine.execBrlmi ra rb rc s
  | .brlReservedCond => Sys2Proof.Machine.execBrlReservedCond s
  | .nop => Sys2Proof.Machine.execNop s
  | .stop => Sys2Proof.Machine.execStop s
  | .een => Sys2Proof.Machine.execEen s
  | .edi => Sys2Proof.Machine.execEdi s
  | .rfi => Sys2Proof.Machine.execRfi s
  | .svi ra rb => Sys2Proof.Machine.execSvi ra rb s
  | .ri ra rb => Sys2Proof.Machine.execRi ra rb s
  | .unusedOp7 => Sys2Proof.Machine.execUnusedOp7 s
  | .unusedOp18 => Sys2Proof.Machine.execUnusedOp18 s
  | .unusedOp19 => Sys2Proof.Machine.execUnusedOp19 s
  | .unusedOp25 => Sys2Proof.Machine.execUnusedOp25 s

end Sys2Proof.Machine
end

