-- ==== Sys2Proof/Machine/Step.lean ====
section
/-! DEFINITION. One step of the machine (60_exceptions.md R214) and the host's way to place an instruction. Both only call
Machine/Ops.lean. -/

namespace Sys2Proof.Machine

/-- One step: halted, interrupt entry, or one instruction (R10, R214). -/
def step (s : State) : Host.Outcome State Fault Refusal := machineStep config exec s

/-- `s` with the instruction word `w` where `step` fetches next, so that the next step runs exactly it (log entry 16). Every row has
32 bits, numbered as the word is. -/
def State.withFetchWord (s : State) (_nbits w : Nat) : State := placeWord config (BitVec.ofNat 32 w) s

end Sys2Proof.Machine
end

