-- ==== Sys2Proof/Machine/Loader.lean ====
section
/-! DEFINITION. How a program comes into memory before a run (30_encoding.md R88, 70_reset_and_hazards.md R241). -/

namespace Sys2Proof.Machine

/-- A program image: (address, byte) pairs, the assembler's output (R88). -/
abbrev Image := List Host.Cell

/-- The loader writes the image into memory, a later pair over an earlier one of the same address. -/
def Memory.load (m : Memory) : Image → Memory
  | [] => m
  | (a, v) :: rest => Memory.load (m.write a v) rest

/-- The state with the image in memory (R88). -/
def State.loadImage (s : State) (img : Image) : State := s.setMem (s.mem.load img)

/-- The state in which a run of the program begins: reset, with the image in memory (R240, R241). -/
def State.boot (img : Image) : State := State.reset.loadImage img

end Sys2Proof.Machine
end

