-- ==== Sys2Proof/Machine/Assembler.lean ====
section
/-! DEFINITION. The assembly language of the source (30_encoding.md R81 to R89): lines, numbers, symbols, the machine instruction
syntax, the pseudo operations, the location counter and the image. What the source leaves open is decided as the spec decides it
(92_eei_decisions.md D31, D32), else as log entries 21, 29, 30 and 31 say. The words and their bytes are those of a Config:
`ENC_FIELDS`, `ENC_OPCODES`, `ENC_COND` and `BYTE_ORDER` (00_scope.md R6). -/

namespace Sys2Proof.Asm

open Sys2Proof.Machine

/-- Why the assembler refuses its input (93_implementation_defined.md U16). Safe: nothing is assembled. -/
inductive AsmError where
  /-- The op-code field is no mnemonic and no pseudo operation (R81, R83, R87). -/
  | unknownOperation
  /-- The operands do not have a shape of the syntax table (R83, U16). -/
  | operandShape
  /-- An operand or a label is no register, constant, symbol or based constant (R81, R82). -/
  | badOperand
  /-- A symbol that nothing defines, or that is needed before it is defined (R82). -/
  | undefinedSymbol
  /-- A symbol defined twice. -/
  | duplicateSymbol
  /-- A constant that does not fit its field (R82), a constant shift count that is not 1 to 31 (R85), a condition that is not 0 to 5
  (R83), an address outside memory. -/
  | outOfRange
  /-- `c2(r0)`: it would use no base (R84). DESIGN CHOICE (log entry 21): refused, one of the two ways that R84 allows. -/
  | baseRegisterZero
  /-- A statement before the first `.org` (R88). -/
  | noLocation
  /-- `.equ` on a line with no label, of which R81 and R87 say nothing. DESIGN CHOICE (log entry 21): refused. -/
  | equWithoutLabel
  deriving DecidableEq, Repr

/-- The machine instruction mnemonics (R83). -/
inductive Mnemonic where
  | ld
  | ldr
  | st
  | str
  | la
  | lar
  | add
  | addi
  | sub
  | neg
  | or
  | ori
  | and
  | andi
  | not
  | shr
  | shra
  | shl
  | shc
  | br
  | brl
  | brnv
  | brlnv
  | brzr
  | brlzr
  | brnz
  | brlnz
  | brpl
  | brlpl
  | brmi
  | brlmi
  | nop
  | stop
  | een
  | edi
  | rfi
  | svi
  | ri
  deriving DecidableEq, Repr

/-- A symbol's name (R82). -/
abbrev Symbol := List Char

/-- A constant as it is written: a number, or a symbol that stands for one (R82). -/
inductive Value where
  | num (n : Int)
  | sym (name : Symbol)
  deriving DecidableEq, Repr

/-- An operand: a register, a constant, or a constant with a base register, `c2(rb)` (R81, R82). -/
inductive Operand where
  | reg (i : Reg)
  | value (v : Value)
  | based (v : Value) (rb : Reg)
  deriving DecidableEq, Repr

/-- What a line asks for: a machine instruction or one of the eight pseudo operations (R83, R87). -/
inductive Stmt where
  | machine (m : Mnemonic) (ops : List Operand)
  /-- `.org`: the location counter becomes the value. -/
  | org (v : Value)
  /-- `.equ`: the line's label gets the value. -/
  | equ (v : Value)
  /-- `.dc`: 32-bit values. -/
  | dc (vs : List Value)
  /-- `.dcb`: 8-bit values. -/
  | dcb (vs : List Value)
  /-- `.dch`: 16-bit values. -/
  | dch (vs : List Value)
  /-- `.db`: storage for bytes. -/
  | db (v : Value)
  /-- `.dh`: storage for halfwords. -/
  | dh (v : Value)
  /-- `.dw`: storage for words. -/
  | dw (v : Value)
  deriving DecidableEq, Repr

/-- A line: "Label: op-code operands ;comments." (R81), its label perhaps missing, and its op-code field too (log entry 29). -/
structure Line where
  label : Option Symbol
  stmt : Option Stmt
  deriving DecidableEq, Repr

/-- The values of the symbols defined so far (R82, R88). -/
abbrev SymbolTable := List (Symbol × Int)

/-! ## Constants (R71 to R73, R82) -/

/-- The value of a constant. DESIGN CHOICE (log entry 21): names are compared letter for letter, so `loop` and `LOOP` are two symbols. -/
def evalValue (tab : SymbolTable) : Value → Except AsmError Int
  | .num n => .ok n
  | .sym x =>
    match tab.lookup x with
    | some n => .ok n
    | none => .error .undefinedSymbol

/-- A constant of a signed field of `w` bits: `c1` and `c2` (R71, R72). -/
def fitSigned (w : Nat) (n : Int) : Except AsmError (BitVec w) :=
  if -(2 ^ (w - 1)) ≤ n ∧ n < 2 ^ (w - 1) then .ok (BitVec.ofInt w n) else .error .outOfRange

/-- A datum of `w` bits, written signed or unsigned (R87). -/
def fitData (w : Nat) (n : Int) : Except AsmError (BitVec w) :=
  if -(2 ^ (w - 1)) ≤ n ∧ n < 2 ^ w then .ok (BitVec.ofInt w n) else .error .outOfRange

/-- A constant shift count, 1 to 31 (R73, R85). -/
def fitCount (n : Int) : Except AsmError (BitVec 5) :=
  if 1 ≤ n ∧ n ≤ 31 then .ok (BitVec.ofInt 5 n) else .error .outOfRange

/-- A condition number, 0 to 5 (R83), whatever `ENC_COND` says (log entry 23). -/
def fitCond (n : Int) : Except AsmError (BitVec 3) :=
  if 0 ≤ n ∧ n ≤ 5 then .ok (BitVec.ofInt 3 n) else .error .outOfRange

/-- The value of `.org`. DESIGN CHOICE (log entry 21): an address of memory, 0 to 2^32 - 1. -/
def fitAddress : Int → Except AsmError Nat
  | .ofNat n => if n < 2 ^ 32 then .ok n else .error .outOfRange
  | .negSucc _ => .error .outOfRange

/-- The count of `.db`, `.dh`, `.dw` (R87). DESIGN CHOICE (log entry 21): any number from 0 on; that the storage lies in memory is the
location counter's bound, `advance`. -/
def fitStorage : Int → Except AsmError Nat
  | .ofNat n => .ok n
  | .negSucc _ => .error .outOfRange

/-! ## Machine instructions (R83), one function per operand shape -/

/-- No operands. -/
def noOperands (c : Config) (i : Instr) : List Operand → Except AsmError Word
  | [] => .ok (c.encode i)
  | _ => .error .operandShape

/-- `ra, c2` or `ra, c2(rb)`. DESIGN CHOICE (log entry 21): a base register 0 is refused, where R84 would also leave it to the
programmer never to write one. -/
def baseForm (c : Config) (tab : SymbolTable) (abs : Reg → BitVec 17 → Instr) (disp : Reg → Reg → BitVec 17 → Instr) :
    List Operand → Except AsmError Word
  | [.reg ra, .value v] => (evalValue tab v >>= fitSigned 17).map fun c2 => c.encode (abs ra c2)
  | [.reg ra, .based v rb] =>
    if rb = 0 then .error .baseRegisterZero
    else (evalValue tab v >>= fitSigned 17).map fun c2 => c.encode (disp ra rb c2)
  | _ => .error .operandShape

/-- `ra, c1`: the constant itself, no label is turned into a distance (R89). -/
def relForm (c : Config) (tab : SymbolTable) (f : Reg → BitVec 22 → Instr) : List Operand → Except AsmError Word
  | [.reg ra, .value v] => (evalValue tab v >>= fitSigned 22).map fun c1 => c.encode (f ra c1)
  | _ => .error .operandShape

/-- `ra, rb, c2`. -/
def immForm (c : Config) (tab : SymbolTable) (f : Reg → Reg → BitVec 17 → Instr) : List Operand → Except AsmError Word
  | [.reg ra, .reg rb, .value v] => (evalValue tab v >>= fitSigned 17).map fun c2 => c.encode (f ra rb c2)
  | _ => .error .operandShape

/-- Three registers. -/
def threeRegs (c : Config) (f : Reg → Reg → Reg → Instr) : List Operand → Except AsmError Word
  | [.reg x, .reg y, .reg z] => .ok (c.encode (f x y z))
  | _ => .error .operandShape

/-- Two registers. -/
def twoRegs (c : Config) (f : Reg → Reg → Instr) : List Operand → Except AsmError Word
  | [.reg x, .reg y] => .ok (c.encode (f x y))
  | _ => .error .operandShape

/-- One register. -/
def oneReg (c : Config) (f : Reg → Instr) : List Operand → Except AsmError Word
  | [.reg x] => .ok (c.encode (f x))
  | _ => .error .operandShape

/-- A shift: the third operand a register or a constant 1 to 31 (R85). -/
def shiftForm (c : Config) (tab : SymbolTable) (reg : Reg → Reg → Reg → Instr) (const : Reg → Reg → BitVec 5 → Instr) :
    List Operand → Except AsmError Word
  | [.reg ra, .reg rb, .reg rc] => .ok (c.encode (reg ra rb rc))
  | [.reg ra, .reg rb, .value v] => (evalValue tab v >>= fitCount).map fun n => c.encode (const ra rb n)
  | _ => .error .operandShape

/-- `br rb` or the general `br rb, rc, c3` (R83, R86). -/
def brForm (c : Config) (tab : SymbolTable) : List Operand → Except AsmError Word
  | [.reg rb] => .ok (c.encode (.br rb))
  | [.reg rb, .reg rc, .value v] => (evalValue tab v >>= fitCond).map fun k => c.encodeBrGeneral rb rc k
  | _ => .error .operandShape

/-- `brl ra, rb` or the general `brl ra, rb, rc, c3` (R83, R86). -/
def brlForm (c : Config) (tab : SymbolTable) : List Operand → Except AsmError Word
  | [.reg ra, .reg rb] => .ok (c.encode (.brl ra rb))
  | [.reg ra, .reg rb, .reg rc, .value v] => (evalValue tab v >>= fitCond).map fun k => c.encodeBrlGeneral ra rb rc k
  | _ => .error .operandShape

/-- The word of a machine instruction line (R83). -/
def assembleWord (c : Config) (tab : SymbolTable) (m : Mnemonic) (ops : List Operand) : Except AsmError Word :=
  match m with
  | .ld => baseForm c tab .ldAbs .ldDisp ops
  | .ldr => relForm c tab .ldr ops
  | .st => baseForm c tab .stAbs .stDisp ops
  | .str => relForm c tab .str ops
  | .la => baseForm c tab .laAbs .laDisp ops
  | .lar => relForm c tab .lar ops
  | .add => threeRegs c .add ops
  | .addi => immForm c tab .addi ops
  | .sub => threeRegs c .sub ops
  | .neg => twoRegs c .neg ops
  | .or => threeRegs c .or ops
  | .ori => immForm c tab .ori ops
  | .and => threeRegs c .and ops
  | .andi => immForm c tab .andi ops
  | .not => twoRegs c .not ops
  | .shr => shiftForm c tab .shrReg .shrConst ops
  | .shra => shiftForm c tab .shraReg .shraConst ops
  | .shl => shiftForm c tab .shlReg .shlConst ops
  | .shc => shiftForm c tab .shcReg .shcConst ops
  | .br => brForm c tab ops
  | .brl => brlForm c tab ops
  | .brnv => noOperands c .brnv ops
  | .brlnv => oneReg c .brlnv ops
  | .brzr => twoRegs c .brzr ops
  | .brlzr => threeRegs c .brlzr ops
  | .brnz => twoRegs c .brnz ops
  | .brlnz => threeRegs c .brlnz ops
  | .brpl => twoRegs c .brpl ops
  | .brlpl => threeRegs c .brlpl ops
  | .brmi => twoRegs c .brmi ops
  | .brlmi => threeRegs c .brlmi ops
  | .nop => noOperands c .nop ops
  | .stop => noOperands c .stop ops
  | .een => noOperands c .een ops
  | .edi => noOperands c .edi ops
  | .rfi => noOperands c .rfi ops
  | .svi => twoRegs c .svi ops
  | .ri => twoRegs c .ri ops

/-- The line that stands for an instruction (R83), its constants written as signed numbers; the unused operation codes and
conditions have none. -/
def lineOf : Instr → Option (Mnemonic × List Operand)
  | .ldAbs ra c2 => some (.ld, [.reg ra, .value (.num c2.toInt)])
  | .ldDisp ra rb c2 => some (.ld, [.reg ra, .based (.num c2.toInt) rb])
  | .ldr ra c1 => some (.ldr, [.reg ra, .value (.num c1.toInt)])
  | .stAbs ra c2 => some (.st, [.reg ra, .value (.num c2.toInt)])
  | .stDisp ra rb c2 => some (.st, [.reg ra, .based (.num c2.toInt) rb])
  | .str ra c1 => some (.str, [.reg ra, .value (.num c1.toInt)])
  | .laAbs ra c2 => some (.la, [.reg ra, .value (.num c2.toInt)])
  | .laDisp ra rb c2 => some (.la, [.reg ra, .based (.num c2.toInt) rb])
  | .lar ra c1 => some (.lar, [.reg ra, .value (.num c1.toInt)])
  | .add ra rb rc => some (.add, [.reg ra, .reg rb, .reg rc])
  | .addi ra rb c2 => some (.addi, [.reg ra, .reg rb, .value (.num c2.toInt)])
  | .sub ra rb rc => some (.sub, [.reg ra, .reg rb, .reg rc])
  | .neg ra rc => some (.neg, [.reg ra, .reg rc])
  | .or ra rb rc => some (.or, [.reg ra, .reg rb, .reg rc])
  | .ori ra rb c2 => some (.ori, [.reg ra, .reg rb, .value (.num c2.toInt)])
  | .and ra rb rc => some (.and, [.reg ra, .reg rb, .reg rc])
  | .andi ra rb c2 => some (.andi, [.reg ra, .reg rb, .value (.num c2.toInt)])
  | .not ra rc => some (.not, [.reg ra, .reg rc])
  | .shrReg ra rb rc => some (.shr, [.reg ra, .reg rb, .reg rc])
  | .shrConst ra rb n => some (.shr, [.reg ra, .reg rb, .value (.num n.toNat)])
  | .shraReg ra rb rc => some (.shra, [.reg ra, .reg rb, .reg rc])
  | .shraConst ra rb n => some (.shra, [.reg ra, .reg rb, .value (.num n.toNat)])
  | .shlReg ra rb rc => some (.shl, [.reg ra, .reg rb, .reg rc])
  | .shlConst ra rb n => some (.shl, [.reg ra, .reg rb, .value (.num n.toNat)])
  | .shcReg ra rb rc => some (.shc, [.reg ra, .reg rb, .reg rc])
  | .shcConst ra rb n => some (.shc, [.reg ra, .reg rb, .value (.num n.toNat)])
  | .brnv => some (.brnv, [])
  | .br rb => some (.br, [.reg rb])
  | .brzr rb rc => some (.brzr, [.reg rb, .reg rc])
  | .brnz rb rc => some (.brnz, [.reg rb, .reg rc])
  | .brpl rb rc => some (.brpl, [.reg rb, .reg rc])
  | .brmi rb rc => some (.brmi, [.reg rb, .reg rc])
  | .brReservedCond => none
  | .brlnv ra => some (.brlnv, [.reg ra])
  | .brl ra rb => some (.brl, [.reg ra, .reg rb])
  | .brlzr ra rb rc => some (.brlzr, [.reg ra, .reg rb, .reg rc])
  | .brlnz ra rb rc => some (.brlnz, [.reg ra, .reg rb, .reg rc])
  | .brlpl ra rb rc => some (.brlpl, [.reg ra, .reg rb, .reg rc])
  | .brlmi ra rb rc => some (.brlmi, [.reg ra, .reg rb, .reg rc])
  | .brlReservedCond => none
  | .nop => some (.nop, [])
  | .stop => some (.stop, [])
  | .een => some (.een, [])
  | .edi => some (.edi, [])
  | .rfi => some (.rfi, [])
  | .svi ra rb => some (.svi, [.reg ra, .reg rb])
  | .ri ra rb => some (.ri, [.reg ra, .reg rb])
  | .unusedOp7 => none
  | .unusedOp18 => none
  | .unusedOp19 => none
  | .unusedOp25 => none

/-! ## The location counter and the image (R87, R88) -/

/-- Apply `f` to every element, stopping at the first error. -/
def mapAll {α β : Type} (f : α → Except AsmError β) : List α → Except AsmError (List β)
  | [] => .ok []
  | x :: rest => f x >>= fun y => (mapAll f rest).map (y :: ·)

/-- The bytes of a datum of `n` bytes in the order of their addresses; most significant first by default (R41, R87). -/
def dataBytes (o : ByteOrder) (n : Nat) (v : BitVec (8 * n)) : List Byte :=
  o.arrange ((List.range n).map fun k => v.extractLsb' (8 * (n - 1 - k)) 8)

/-- The data of `.dc`, `.dcb`, `.dch`: each value as `n` bytes (R87). -/
def dataValues (o : ByteOrder) (tab : SymbolTable) (n : Nat) (vs : List Value) : Except AsmError (List Byte) :=
  (mapAll (fun v => (evalValue tab v >>= fitData (8 * n)).map (dataBytes o n)) vs).map List.flatten

/-- How far a statement advances the location counter (R87, R88); `.org` sets it instead. -/
def Stmt.size (tab : SymbolTable) : Stmt → Except AsmError Nat
  | .machine .. => .ok 4
  | .org _ | .equ _ => .ok 0
  | .dc vs => .ok (4 * vs.length)
  | .dcb vs => .ok vs.length
  | .dch vs => .ok (2 * vs.length)
  | .db v => evalValue tab v >>= fitStorage
  | .dh v => (evalValue tab v >>= fitStorage).map (2 * ·)
  | .dw v => (evalValue tab v >>= fitStorage).map (4 * ·)

/-- The bytes a statement places; reserved storage is not initialised (R87). -/
def Stmt.bytes (c : Config) (tab : SymbolTable) : Stmt → Except AsmError (List Byte)
  | .machine m ops => (assembleWord c tab m ops).map (bytesOfWord c.byteOrder)
  | .dc vs => dataValues c.byteOrder tab 4 vs
  | .dcb vs => dataValues c.byteOrder tab 1 vs
  | .dch vs => dataValues c.byteOrder tab 2 vs
  | .org _ | .equ _ | .db _ | .dh _ | .dw _ => .ok []

/-- The location counter, which has no value before the first `.org` (R88). -/
def here : Option Nat → Except AsmError Nat
  | some loc => .ok loc
  | none => .error .noLocation

/-- Define the label of a line, if it has one. -/
def define (tab : SymbolTable) (label : Option Symbol) (n : Int) : Except AsmError SymbolTable :=
  match label with
  | none => .ok tab
  | some x => if (tab.lookup x).isSome then .error .duplicateSymbol else .ok ((x, n) :: tab)

/-- Advance the location counter; nothing is placed or reserved beyond the end of memory, at which it may stand (log entry 21). -/
def advance (loc size : Nat) : Except AsmError Nat :=
  if loc + size ≤ 2 ^ 32 then .ok (loc + size) else .error .outOfRange

/-- Where the location counter stands after a statement (R87, R88). -/
def nextLocation (tab : SymbolTable) (loc : Option Nat) (st : Option Stmt) : Except AsmError Nat :=
  match st with
  | some (.org v) => evalValue tab v >>= fitAddress
  | some st => here loc >>= fun n => st.size tab >>= advance n
  | none => here loc

/-- What the label of a line stands for: the value of `.equ`, else the location counter at the start of the line (R87, R88). DESIGN
CHOICE (log entry 21): a label on the first `.org` line, where the counter has no value yet, is refused, and so is an `.equ` line
with no label. -/
def labelValue (tab : SymbolTable) (loc : Option Nat) (l : Line) : Except AsmError Int :=
  match l.stmt with
  | some (.equ v) => if l.label.isNone then .error .equWithoutLabel else evalValue tab v
  | _ => (here loc).map Int.ofNat

/-- The first pass: the values of the symbols. A line with neither label nor statement does nothing. -/
def symbols (loc : Option Nat) (tab : SymbolTable) : List Line → Except AsmError SymbolTable
  | [] => .ok tab
  | l :: rest =>
    if l.label.isNone && l.stmt.isNone then symbols loc tab rest
    else if l.label.isNone && (match l.stmt with | some (.equ _) => false | _ => true) then
      nextLocation tab loc l.stmt >>= fun loc' => symbols (some loc') tab rest
    else
      labelValue tab loc l >>= fun n =>
      define tab l.label n >>= fun tab' =>
      nextLocation tab' loc l.stmt >>= fun loc' => symbols (some loc') tab' rest

/-- (address, byte) pairs from an address on. -/
def place (loc : Nat) : List Byte → Image
  | [] => []
  | b :: rest => (loc, b) :: place (loc + 1) rest

/-- The second pass: the image (R88). -/
def image (c : Config) (tab : SymbolTable) (loc : Option Nat) : List Line → Except AsmError Image
  | [] => .ok []
  | l :: rest =>
    match l.stmt with
    | none => image c tab loc rest
    | some st =>
      st.bytes c tab >>= fun bs =>
      nextLocation tab loc (some st) >>= fun loc' =>
      (image c tab (some loc') rest).map ((match loc with | some n => place n bs | none => []) ++ ·)

/-- The image of a program (R88). -/
def assemble (c : Config) (lines : List Line) : Except AsmError Image :=
  symbols none [] lines >>= fun tab => image c tab none lines

/-! ## Text (R81, R82) -/

/-- Blank space between the parts of a line. The spec does not say where it may stand: DESIGN CHOICE (log entry 30). -/
def isBlank (c : Char) : Bool := c == ' ' || c == '\t' || c == '\r'

/-- Take the blanks off both ends. -/
def trim (cs : List Char) : List Char := ((cs.dropWhile isBlank).reverse.dropWhile isBlank).reverse

/-- The text before the first `c`, and the text after it if there is one. -/
def cutAt (c : Char) : List Char → List Char × Option (List Char)
  | [] => ([], none)
  | d :: rest => if d = c then ([], some rest) else let (before, after) := cutAt c rest; (d :: before, after)

/-- The pieces between the separators `c`; a text without one is one piece. -/
def pieces (c : Char) : List Char → List (List Char)
  | [] => [[]]
  | d :: rest =>
    if d = c then [] :: pieces c rest
    else match pieces c rest with
      | [] => [[d]]
      | p :: ps => (d :: p) :: ps

/-- A decimal digit. -/
def isDigit (c : Char) : Bool := decide ('0' ≤ c) && decide (c ≤ '9')

/-- The value of a digit, 0 to 9 and A to F. -/
def digitValue (c : Char) : Option Nat :=
  if isDigit c then some (c.toNat - '0'.toNat)
  else if decide ('A' ≤ c) && decide (c ≤ 'F') then some (c.toNat - 'A'.toNat + 10)
  else none

/-- The number whose digits follow `acc`. -/
def digitsFrom (base acc : Nat) : List Char → Option Nat
  | [] => some acc
  | c :: rest =>
    match digitValue c with
    | some d => if d < base then digitsFrom base (base * acc + d) rest else none
    | none => none

/-- A non-empty run of digits. -/
def digits (base : Nat) (cs : List Char) : Option Nat := if cs.isEmpty then none else digitsFrom base 0 cs

/-- "Values are assumed to be decimal unless terminated by B (binary) or H (hexadecimal)"; a leading minus sign on a decimal
constant, a digit at the head of a hexadecimal one (R82). -/
def parseNumber (cs : List Char) : Option Int :=
  match cs with
  | '-' :: rest => (digits 10 rest).map fun n => -(n : Int)
  | _ =>
    match cs.getLast? with
    | some 'H' => if (cs.head?.map isDigit).getD false then (digits 16 cs.dropLast).map Int.ofNat else none
    | some 'B' => (digits 2 cs.dropLast).map Int.ofNat
    | _ => (digits 10 cs).map Int.ofNat

/-- `r` and the decimal register number, r0 to r31 (R82). DESIGN CHOICE (log entry 21): a number of two digits or more that begins with
0 (`r01`, `r007`) is no register's name, and so can be a symbol. -/
def parseReg (cs : List Char) : Option Reg :=
  match cs with
  | 'r' :: ds =>
    match digits 10 ds with
    | some n => if h : n < 32 then (if ds.length = 1 ∨ ds.head? ≠ some '0' then some ⟨n, h⟩ else none) else none
    | none => none
  | _ => none

/-- A letter of a symbol's name. -/
def isLetter (c : Char) : Bool :=
  (decide ('a' ≤ c) && decide (c ≤ 'z')) || (decide ('A' ≤ c) && decide (c ≤ 'Z')) || c == '_'

/-- A symbol: a letter, then letters and digits, and no register's name (log entry 21). -/
def parseSymbol (cs : List Char) : Option Symbol :=
  match cs with
  | c :: rest => if isLetter c && rest.all (fun d => isLetter d || isDigit d) && (parseReg cs).isNone then some cs else none
  | [] => none

/-- A constant: a number or a symbol (R82). -/
def parseValue (cs : List Char) : Except AsmError Value :=
  match parseNumber cs with
  | some n => .ok (.num n)
  | none =>
    match parseSymbol cs with
    | some x => .ok (.sym x)
    | none => .error .badOperand

/-- An operand; a base register is written in parentheses after its constant, `c2(rb)` (R81). DESIGN CHOICE (log entry 30): blanks may
stand around the constant and the register of `c2(rb)` and after its parenthesis. -/
def parseOperand (cs : List Char) : Except AsmError Operand :=
  match parseReg cs with
  | some i => .ok (.reg i)
  | none =>
    match cutAt '(' cs with
    | (v, some inside) =>
      match (cutAt ')' inside) with
      | (base, some rest) =>
        match parseReg (trim base) with
        | some rb => if rest.all isBlank then (parseValue (trim v)).map (Operand.based · rb) else .error .badOperand
        | none => .error .badOperand
      | (_, none) => .error .badOperand
    | (_, none) => (parseValue cs).map Operand.value

/-- The first half of the mnemonics' spellings (R83). -/
def mnemonicsLower : List (List Char × Mnemonic) :=
  [("ld".toList, .ld), ("ldr".toList, .ldr), ("st".toList, .st), ("str".toList, .str), ("la".toList, .la), ("lar".toList, .lar),
   ("add".toList, .add), ("addi".toList, .addi), ("sub".toList, .sub), ("neg".toList, .neg), ("or".toList, .or), ("ori".toList, .ori),
   ("and".toList, .and), ("andi".toList, .andi), ("not".toList, .not), ("shr".toList, .shr), ("shra".toList, .shra), ("shl".toList, .shl),
   ("shc".toList, .shc)]

/-- The second half of the mnemonics' spellings (R83). -/
def mnemonicsUpper : List (List Char × Mnemonic) :=
  [("br".toList, .br), ("brl".toList, .brl), ("brnv".toList, .brnv), ("brlnv".toList, .brlnv), ("brzr".toList, .brzr), ("brlzr".toList, .brlzr),
   ("brnz".toList, .brnz), ("brlnz".toList, .brlnz), ("brpl".toList, .brpl), ("brlpl".toList, .brlpl), ("brmi".toList, .brmi), ("brlmi".toList, .brlmi),
   ("nop".toList, .nop), ("stop".toList, .stop), ("een".toList, .een), ("edi".toList, .edi), ("rfi".toList, .rfi), ("svi".toList, .svi),
   ("ri".toList, .ri)]

/-- A machine instruction mnemonic, "a few lower case letters" (R81). -/
def parseMnemonic (cs : List Char) : Option Mnemonic := (mnemonicsLower ++ mnemonicsUpper).lookup cs

/-- One value, for `.org`, `.equ`, `.db`, `.dh`, `.dw`. -/
def oneValue (f : Value → Stmt) : List (List Char) → Except AsmError Stmt
  | [v] => (parseValue v).map f
  | _ => .error .operandShape

/-- One value or more, for `.dc`, `.dcb`, `.dch`. -/
def someValues (f : List Value → Stmt) (args : List (List Char)) : Except AsmError Stmt :=
  if args.isEmpty then .error .operandShape else (mapAll parseValue args).map f

/-- A pseudo operation, which begins with a period (R81, R87). -/
def parsePseudo (name : List Char) (args : List (List Char)) : Except AsmError Stmt :=
  if name = ".org".toList then oneValue .org args
  else if name = ".equ".toList then oneValue .equ args
  else if name = ".dc".toList then someValues .dc args
  else if name = ".dcb".toList then someValues .dcb args
  else if name = ".dch".toList then someValues .dch args
  else if name = ".db".toList then oneValue .db args
  else if name = ".dh".toList then oneValue .dh args
  else if name = ".dw".toList then oneValue .dw args
  else .error .unknownOperation

/-- The text before the first blank, and what follows the blanks. -/
def firstWord (cs : List Char) : List Char × List Char :=
  (cs.takeWhile fun c => !isBlank c, trim (cs.dropWhile fun c => !isBlank c))

/-- The op-code field and its operands, separated by commas (R81). -/
def parseStmt (cs : List Char) : Except AsmError Stmt :=
  let (word, rest) := firstWord cs
  let args := if rest.isEmpty then [] else (pieces ',' rest).map trim
  if word.head? = some '.' then parsePseudo word args
  else match parseMnemonic word with
    | some m => (mapAll parseOperand args).map (Stmt.machine m)
    | none => .error .unknownOperation

/-- What follows the label: perhaps nothing. DESIGN CHOICE (log entry 29): R81 lets only the label be missing; a line without an op-code
field is accepted, and a label on it stands for the location counter. -/
def parseBody (cs : List Char) : Except AsmError (Option Stmt) :=
  let body := trim cs
  if body.isEmpty then .ok none else (parseStmt body).map some

/-- A line without a colon. R81 lets a label and its colon be missing together, while V-SRC-1 of 95_test_vectors.md writes `A .equ 100`.
DESIGN CHOICE (log entry 31): a symbol before a pseudo operation is the line's label, and before anything else a label needs its
colon. -/
def parseNoColon (cs : List Char) : Except AsmError Line :=
  let (word, rest) := firstWord (trim cs)
  match parseSymbol word, rest with
  | some x, '.' :: _ => (parseBody rest).map (Line.mk (some x))
  | _, _ => (parseBody cs).map (Line.mk none)

/-- One line of source (R81): the comment runs from the semicolon to the end of the line. DESIGN CHOICE: blanks may stand before and
after a label and its colon (log entry 30), and a label may stand alone (log entry 29). -/
def parseLine (cs : List Char) : Except AsmError Line :=
  match cutAt ':' (cutAt ';' cs).1 with
  | (l, some rest) =>
    match parseSymbol (trim l) with
    | some x => (parseBody rest).map (Line.mk (some x))
    | none => .error .badOperand
  | (all, none) => parseNoColon all

/-- The image of a source text, its lines separated by newlines. -/
def assembleText (c : Config) (text : List Char) : Except AsmError Image :=
  mapAll parseLine (pieces '\n' text) >>= assemble c

end Sys2Proof.Asm
end

