-- ==== Sys2Proof/Safety.lean ====
section
/-! DEFINITION. The terms claims are stated in: frames, which states execute an instruction, reachability, safe runs. -/

namespace Sys2Proof

/-! ## Encodings that can be told apart -/

/-- Two fields, `n` bits from `lo` and `n'` bits from `lo'`, share no bit. -/
def Apart (lo n lo' n' : Nat) : Prop := lo + n ≤ lo' ∨ lo' + n' ≤ lo

/-- The fields of every format lie in the word and share no bit (R62 to R70). -/
structure FieldPositions.Sound (f : FieldPositions) : Prop where
  inWord : f.op + 5 ≤ 32 ∧ f.ra + 5 ≤ 32 ∧ f.rb + 5 ≤ 32 ∧ f.rc + 5 ≤ 32 ∧ f.c1 + 22 ≤ 32 ∧ f.c2 + 17 ≤ 32 ∧ f.c3 + 12 ≤ 32
  opApart : Apart f.op 5 f.ra 5 ∧ Apart f.op 5 f.rb 5 ∧ Apart f.op 5 f.rc 5 ∧ Apart f.op 5 f.c1 22 ∧ Apart f.op 5 f.c2 17 ∧
    Apart f.op 5 f.c3 12
  format1 : Apart f.ra 5 f.rb 5 ∧ Apart f.ra 5 f.c2 17 ∧ Apart f.rb 5 f.c2 17
  format2 : Apart f.ra 5 f.c1 22
  format3 : Apart f.ra 5 f.rc 5 ∧ Apart f.ra 5 f.c3 12 ∧ Apart f.rb 5 f.rc 5 ∧ Apart f.rb 5 f.c3 12 ∧ Apart f.rc 5 f.c3 12

/-- Every operation and condition has a code of its own, and the codes of the unused rows name none (R74, R76, R78, R160). -/
structure Config.SoundEncoding (c : Config) : Prop where
  fields : c.fields.Sound
  operations : ∀ o, c.operation (c.code o) = some o
  conditions : ∀ k, c.condition (c.condNumber k) = some k
  unused : ∀ op ∈ [7#5, 18#5, 19#5, 25#5], c.operation op = none
  reserved : c.condition 6#3 = none

end Sys2Proof

namespace Sys2Proof.Machine

/-! ## Frames -/

/-- Every general register but those listed holds what it held. -/
def KeepsRegs (except : List Reg) (s t : State) : Prop := ∀ i, i ∉ except → t.reg i = s.reg i

/-- Every byte of memory reads as before. -/
def KeepsMemory (s t : State) : Prop := ∀ a, t.byte a = s.byte a

/-- `b` is one of the four byte addresses of the word at `a`, modulo 2^32 (20_memory.md R41, R42). -/
def InWord (a b : Word) : Prop := b = a ∨ b = a + 1 ∨ b = a + 2 ∨ b = a + 3

/-- Every byte of memory outside the word at `a` reads as before. -/
def KeepsMemoryOutside (a : Word) (s t : State) : Prop := ∀ b, ¬ InWord a b → t.byte b = s.byte b

/-- The four bytes of the word at `a` are those of `v`, most significant first (20_memory.md R41). -/
def HoldsWord (a v : Word) (t : State) : Prop :=
  t.byte a = v.extractLsb' 24 8 ∧ t.byte (a + 1) = v.extractLsb' 16 8 ∧
  t.byte (a + 2) = v.extractLsb' 8 8 ∧ t.byte (a + 3) = v.extractLsb' 0 8

/-- Run, IE, IPC and II are unchanged (10_state.md R26 to R29). -/
def KeepsControl (s t : State) : Prop := t.run = s.run ∧ t.ie = s.ie ∧ t.ipc = s.ipc ∧ t.ii = s.ii

/-- The interrupt interface and the model's counter of free values are unchanged. -/
def KeepsInterface (s t : State) : Prop := t.irq = s.irq ∧ t.iack = s.iack ∧ t.draws = s.draws

/-- The frame of an instruction that writes one register and nothing else: PC, memory, control state, interface and every other
register are as they were. -/
def WritesOnlyReg (ra : Reg) (s t : State) : Prop :=
  KeepsRegs [ra] s t ∧ t.pc = s.pc ∧ KeepsMemory s t ∧ KeepsControl s t ∧ KeepsInterface s t

/-- The word whose four bytes stand at `a`, most significant first (20_memory.md R41). -/
def State.wordAt (s : State) (a : Word) : Word := s.byte a ++ s.byte (a + 1) ++ s.byte (a + 2) ++ s.byte (a + 3)

/-- The frame of an instruction that stores `v` as the word at `a` and does nothing else. -/
def StoresOnlyWord (a v : Word) (s t : State) : Prop :=
  HoldsWord a v t ∧ KeepsMemoryOutside a s t ∧ KeepsRegs [] s t ∧ t.pc = s.pc ∧ KeepsControl s t ∧ KeepsInterface s t

/-- The frame of a branch: PC becomes the target if it is taken and stays if it is not; every register but those listed, memory,
control state and interface are as they were. -/
def BranchesTo (taken : Prop) (target : Word) (except : List Reg) (s t : State) : Prop :=
  (taken → t.pc = target) ∧ (¬ taken → t.pc = s.pc) ∧
  KeepsRegs except s t ∧ KeepsMemory s t ∧ KeepsControl s t ∧ KeepsInterface s t

/-! ## What a model fault leaves (60_exceptions.md R212) -/

/-- "none": every register, memory, PC and the control state are as they were. -/
def LeavesAll (s t : State) : Prop := t.pc = s.pc ∧ KeepsRegs [] s t ∧ KeepsMemory s t ∧ KeepsControl s t

/-- "PC already advanced": by 4 modulo 2^32, and every register, memory and the control state are as they were. -/
def LeavesAllButPc (s t : State) : Prop := t.pc = s.pc + 4 ∧ KeepsRegs [] s t ∧ KeepsMemory s t ∧ KeepsControl s t

/-! ## Encodings and the address map -/

/-- Every word with the operation code `op` decodes to `f` of it. -/
def DecodesAs (op : BitVec 5) (f : Word → Instr) : Prop := ∀ w, fieldOp w = op → decodeWord w = f w

/-- Every word with the operation code `op` and the condition `k` decodes to `f` of it. -/
def DecodesAsCond (op : BitVec 5) (k : BitVec 3) (f : Word → Instr) : Prop :=
  ∀ w, fieldOp w = op → fieldCond w = k → decodeWord w = f w

/-- The region holds the address (20_memory.md R47). -/
def Holds (g : Region) (a : Word) : Prop := g.base ≤ a.toNat ∧ a.toNat < g.base + g.size

/-- The alignment check of the configuration lets the address pass (20_memory.md R42, R43). -/
def PassesAlignment (c : Config) (a : Word) : Prop := c.misaligned = .fault → aligned a = true

/-! ## Steps and runs -/

/-- At this boundary an instruction runs: Run is 1 and no request is accepted (60_exceptions.md R214). -/
def Executes (s : State) : Prop := s.run = true ∧ (s.ie = false ∨ s.presented = none)

/-- At this boundary the request `q` is accepted (R214). -/
def Accepts (s : State) (q : IrqRequest) : Prop := s.run = true ∧ s.ie = true ∧ s.presented = some q

/-- The instruction `i`, the decoding of the word at PC, is what this step runs. -/
def RunsInstr (s : State) (i : Instr) : Prop := Executes s ∧ ∃ w, fetch config s = .next w ∧ decodeWord w = i

/-- The state an instruction is given: the boundary has gone by and PC is advanced (R214, 10_state.md R23). -/
def afterFetch (s : State) : State := s.passBoundary.advancePc

/-- The invariant of every state of the model: memory is in its canonical form. -/
def State.Inv (s : State) : Prop := s.mem.wf = true

/-- Reachability by steps. -/
inductive Reaches : State → State → Prop where
  | here (s : State) : Reaches s s
  | onward {s t u : State} : Reaches s t → step t = .next u → Reaches s u

/-- A run from `s` is safe: it never meets a model fault or a refusal; it may halt (70_reset_and_hazards.md R242). -/
def SafeFrom (s : State) : Prop :=
  ∀ t, Reaches s t → (∃ u, step t = .next u) ∨ step t = .fault .halted

end Sys2Proof.Machine
end

