-- ==== Sys2Proof/Certificates/Slice0/Obligations.lean ====
section
/-! DEFINITION. The statements for the provers, from the numbered rules of spec/. `exec i s` is an instruction's effect on the state
after its fetch, in which `s.pc` is the address of the instruction plus 4 (10_state.md R23). A statement whose title or docstring
names a decision D<n> rests on the spec's own choice there (92_eei_decisions.md), one that names a log entry on the model's. -/

open Sys2Proof Sys2Proof.Machine

/-- For every configuration whose encoding parameters are sound (fields of one format share no bit, every operation and condition has a code of its own, the codes of the unused rows name none) and every well-formed instruction of all 51 rows, with every operand at every value its field admits, decoding the encoding gives the instruction back; so it does under the default parameters, which the spec supplies from general knowledge (D1, D2, D3). That the parameters are fields of a configuration, and what sound means, is the model's choice (log entry 23). (R6, R61, R62, R68, R74, R75, R83.) -/
def Obligations.DecodeOfEncodeIsTheInstruction : Prop :=
  (∀ c : Config, c.SoundEncoding → ∀ i : Instr, i.wf = true → c.decode (c.encode i) = i) ∧
  ∀ i : Instr, i.wf = true → decodeWord (encode i) = i

/-- For every 32-bit word w the decoder gives a well-formed instruction, and encoding it gives w back except that the bits opcode_table.json lists as ignored for that row are 0. Rests on D1, D2 and D6 of the spec. (R61, R74, R75, R77.) -/
def Obligations.EncodeOfDecodeKeepsTheUsedBits : Prop :=
  ∀ w : Word, (decodeWord w).wf = true ∧ encode (decodeWord w) = w &&& ~~~(ignoredBits (decodeWord w))

/-- For every word w and every change u confined to the bits ignored by w's row, the changed word decodes to the same instruction (R77, the spec's decision D6). (R77.) -/
def Obligations.UnusedBitsDoNotChangeTheInstruction : Prop :=
  ∀ w u : Word, decodeWord (w ^^^ (u &&& ignoredBits (decodeWord w))) = decodeWord w

/-- opcode (decodeWord w) is the op field of every word w; and words with op 0 to 6, 13, 16, 17, 21, 23, 24 decode to nop, ld, ldr, st, str, la, lar, addi, svi, ri, andi, ori, not with the fields of R61 (ld, st, la: the absolute form when the rb field is 0), and 7, 18, 19, 25 to the unused rows. The numbers are the spec's decision D2. (R61, R71, R72, R74, R75, R76, R84.) -/
def Obligations.OperationCodeMapDecides : Prop :=
  (∀ w : Word, opcode (decodeWord w) = fieldOp w) ∧
  DecodesAs 0#5 (fun _ => .nop) ∧
  DecodesAs 1#5 (fun w => if fieldRb w = 0 then .ldAbs (fieldRa w) (fieldC2 w) else .ldDisp (fieldRa w) (fieldRb w) (fieldC2 w)) ∧
  DecodesAs 2#5 (fun w => .ldr (fieldRa w) (fieldC1 w)) ∧
  DecodesAs 3#5 (fun w => if fieldRb w = 0 then .stAbs (fieldRa w) (fieldC2 w) else .stDisp (fieldRa w) (fieldRb w) (fieldC2 w)) ∧
  DecodesAs 4#5 (fun w => .str (fieldRa w) (fieldC1 w)) ∧
  DecodesAs 5#5 (fun w => if fieldRb w = 0 then .laAbs (fieldRa w) (fieldC2 w) else .laDisp (fieldRa w) (fieldRb w) (fieldC2 w)) ∧
  DecodesAs 6#5 (fun w => .lar (fieldRa w) (fieldC1 w)) ∧
  DecodesAs 13#5 (fun w => .addi (fieldRa w) (fieldRb w) (fieldC2 w)) ∧
  DecodesAs 16#5 (fun w => .svi (fieldRa w) (fieldRb w)) ∧
  DecodesAs 17#5 (fun w => .ri (fieldRa w) (fieldRb w)) ∧
  DecodesAs 21#5 (fun w => .andi (fieldRa w) (fieldRb w) (fieldC2 w)) ∧
  DecodesAs 23#5 (fun w => .ori (fieldRa w) (fieldRb w) (fieldC2 w)) ∧
  DecodesAs 24#5 (fun w => .not (fieldRa w) (fieldRc w)) ∧
  DecodesAs 7#5 (fun _ => .unusedOp7) ∧
  DecodesAs 18#5 (fun _ => .unusedOp18) ∧
  DecodesAs 19#5 (fun _ => .unusedOp19) ∧
  DecodesAs 25#5 (fun _ => .unusedOp25)

/-- Fifteen words printed in 95_test_vectors.md (among them the textbook's own 0D880018H = ld r22, 24(r4)) decode to the instructions printed beside them. (R62, R63, R64, R65, R66, R67, R68, R69, R70.) -/
def Obligations.WorkedWordsDecode : Prop :=
  [0x0D880018#32, 0x08C00064#32, 0x08CBFFFC#32, 0x107FFFF8#32, 0x18CA0004#32, 0x29CE0004#32, 0x3180002D#32, 0x79CA9123#32,
   0x40082FFA#32, 0x49880003#32, 0x60044000#32, 0xD0C22024#32, 0xE0886000#32, 0x852A0000#32, 0xFFFFFFFF#32].map decodeWord =
  [.ldDisp 22 4 24#17, .ldAbs 3 100#17, .ldDisp 3 5 (-4), .ldr 1 (-8), .stDisp 3 5 4#17, .laDisp 7 7 4#17, .lar 6 45#22, .neg 7 9,
   .brzr 4 2, .brlnz 6 4 0, .add 0 2 4, .shrConst 3 1 4#5, .shlReg 2 4 6, .svi 20 21, .stop]

/-- For all registers, the word of the general form with condition 0 to 5 decodes to the named form of that condition, and with 6 or 7 to the reserved row: these are the two alias rows of the opcode table. The numbering is the spec's decision D3. (R65, R66, R75, R78, R83, R86, R160.) -/
def Obligations.GeneralBranchFormsAreTheNamedForms : Prop :=
  ∀ ra rb rc : Reg,
    decodeWord (config.encodeBrGeneral rb rc 0#3) = .brnv ∧ decodeWord (config.encodeBrlGeneral ra rb rc 0#3) = .brlnv ra ∧
    decodeWord (config.encodeBrGeneral rb rc 1#3) = .br rb ∧ decodeWord (config.encodeBrlGeneral ra rb rc 1#3) = .brl ra rb ∧
    decodeWord (config.encodeBrGeneral rb rc 2#3) = .brzr rb rc ∧ decodeWord (config.encodeBrlGeneral ra rb rc 2#3) = .brlzr ra rb rc ∧
    decodeWord (config.encodeBrGeneral rb rc 3#3) = .brnz rb rc ∧ decodeWord (config.encodeBrlGeneral ra rb rc 3#3) = .brlnz ra rb rc ∧
    decodeWord (config.encodeBrGeneral rb rc 4#3) = .brpl rb rc ∧ decodeWord (config.encodeBrlGeneral ra rb rc 4#3) = .brlpl ra rb rc ∧
    decodeWord (config.encodeBrGeneral rb rc 5#3) = .brmi rb rc ∧ decodeWord (config.encodeBrlGeneral ra rb rc 5#3) = .brlmi ra rb rc ∧
    decodeWord (config.encodeBrGeneral rb rc 6#3) = .brReservedCond ∧ decodeWord (config.encodeBrlGeneral ra rb rc 6#3) = .brlReservedCond ∧
    decodeWord (config.encodeBrGeneral rb rc 7#3) = .brReservedCond ∧ decodeWord (config.encodeBrlGeneral ra rb rc 7#3) = .brlReservedCond

/-- For every configuration with a sound encoding the bytes of a well-formed instruction are four, the first is bits 31..24 of its word under BYTE_ORDER = big-endian (the spec's decision D7) and bits 7..0 under little-endian, and decoding them before any further bytes gives the instruction and those further bytes; fewer than four bytes are refused as truncated. (R6, R60, R80, R41.) -/
def Obligations.BytesHoldOneInstructionEach : Prop :=
  (∀ (c : Config) (i : Instr) (rest : List Byte), c.SoundEncoding → i.wf = true →
    (c.encodeBytes i).length = 4 ∧
    (c.byteOrder = .bigEndian → (c.encodeBytes i).head? = some ((c.encode i).extractLsb' 24 8)) ∧
    (c.byteOrder = .littleEndian → (c.encodeBytes i).head? = some ((c.encode i).extractLsb' 0 8)) ∧
    c.decodeBytes (c.encodeBytes i ++ rest) = .ok (i, rest)) ∧
  (∀ (c : Config) (bytes : List Byte), bytes.length < 4 → c.decodeBytes bytes = .error .truncated)

/-- For every state, aligned address a and value v, memWrite answers a state in which the bytes a to a+3 are v[31:24] to v[7:0], every other byte reads as before, and nothing but memory has changed (decisions D7, D9, D29). (R41, R42.) -/
def Obligations.WordWriteStoresFourBytes : Prop :=
  ∀ (s : State) (a v : Word), aligned a = true →
    ∃ t, memWrite config s a v = .next t ∧ StoresOnlyWord a v s t

/-- For every big-endian configuration with the default address map and every address that passes its alignment check, memRead answers Mem[a] ++ Mem[a+1] ++ Mem[a+2] ++ Mem[a+3], addresses modulo 2^32; under bytewise every address passes (decisions D7, D9, D11). (R41, R42, R43, R54.) -/
def Obligations.WordReadJoinsFourBytes : Prop :=
  ∀ (c : Config) (f : Word → State → Fault) (s : State) (a : Word),
    c.memMap = Config.allMemory → c.byteOrder = .bigEndian → PassesAlignment c a →
    memRead c f s a = .next (s.wordAt a)

/-- For every configuration: an access that fails the alignment check is the misalignment fault, reads with the fault of the reader (fetch or data), nothing else being looked at; one that passes it but lies in no region that permits it is NoMemory; one all of whose permitting regions are devices is refused as a device access (decisions D9, D29). The state a fault leaves is the one the access found; that a fault carries it is the model's form (log entry 15). The refusal of devices, and that the word's own address is the one looked up, are the model's choice (log entry 5): R46 leaves a device's behaviour to its platform. (R42, R43, R44, R47, R212, R218.) -/
def Obligations.AccessChecksComeInOrder : Prop :=
  ∀ (c : Config) (f : Word → State → Fault) (s : State) (a v : Word),
    (¬ PassesAlignment c a → memRead c f s a = .fault (f a s) ∧ memWrite c s a v = .fault (.misalignedData a s)) ∧
    (PassesAlignment c a → (∀ g ∈ c.memMap, Holds g a → g.readable = false) → memRead c f s a = .fault (.noMemory a s)) ∧
    (PassesAlignment c a → (∀ g ∈ c.memMap, Holds g a → g.writable = false) → memWrite c s a v = .fault (.noMemory a s)) ∧
    (PassesAlignment c a → (∃ g ∈ c.memMap, Holds g a ∧ g.readable = true) →
      (∀ g ∈ c.memMap, Holds g a → g.readable = true → g.kind = .device) → memRead c f s a = .refused (.deviceAccess a)) ∧
    (PassesAlignment c a → (∃ g ∈ c.memMap, Holds g a ∧ g.writable = true) →
      (∀ g ∈ c.memMap, Holds g a → g.writable = true → g.kind = .device) → memWrite c s a v = .refused (.deviceAccess a))

/-- If st or str completes, then ld or ldr with the same address operands, on the state it leaves, completes and writes the stored value, whatever the destination register. Ordering is the spec's decision D26. (R46, R49, R102, R103, R104, R105.) -/
def Obligations.StoredWordIsLoadedBack : Prop :=
  ∀ (s t : State) (ra rd rb : Reg) (c2 : BitVec 17) (c1 : BitVec 22),
    (exec (.stAbs ra c2) s = .next t → exec (.ldAbs rd c2) t = .next (t.setReg rd (s.reg ra))) ∧
    (exec (.stDisp ra rb c2) s = .next t → exec (.ldDisp rd rb c2) t = .next (t.setReg rd (s.reg ra))) ∧
    (exec (.str ra c1) s = .next t → exec (.ldr rd c1) t = .next (t.setReg rd (s.reg ra)))

/-- For every state whose memory is canonical (addresses strictly rising below 2^32), a step that answers a next state leaves it canonical. The canonical form is the model's own (log entry 10). (R31, R40, R42.) -/
def Obligations.StepKeepsMemoryCanonical : Prop :=
  ∀ s t : State, s.Inv → step s = .next t → t.Inv

/-- State.reset and the state after the loader has written any image whose addresses are below 2^32 have canonical memory. The canonical form is the model's own (log entry 10), and so is the loader's order (log entry 22). (R36, R88, R240.) -/
def Obligations.BootMemoryIsCanonical : Prop :=
  State.reset.Inv ∧ ∀ img : Image, (∀ c ∈ img, c.1 < 2 ^ 32) → (State.boot img).Inv

/-- If two memories are canonical and at every address below 2^32 the same byte has been written in both, or none in both, they are equal (the model's own representation, log entry 10). (R40.) -/
def Obligations.CanonicalMemoriesWrittenAlikeAreEqual : Prop :=
  ∀ m n : Memory, m.wf = true → n.wf = true → (∀ a, a < 2 ^ 32 → m.written a = n.written a) → m = n

/-- The absolute address is the signed value of c2; with rb not 0 the displacement address is R[rb] plus the signed value of c2; the relative address is PC plus the signed value of c1; all modulo 2^32. With rb = 0 the displacement address is the absolute one, and it does not depend on R[0] (decisions D11, D15, D16). (R54, R71, R72, R84, R100, R101.) -/
def Obligations.EffectiveAddressesAreTheSpecsSums : Prop :=
  ∀ (s : State) (rb : Reg) (c2 : BitVec 17) (c1 : BitVec 22) (v : Word),
    absAddress s c2 = BitVec.ofInt 32 c2.toInt ∧
    (rb ≠ 0 → dispAddress s rb c2 = BitVec.ofInt 32 ((s.reg rb).toNat + c2.toInt)) ∧
    dispAddress s 0 c2 = absAddress s c2 ∧ absAddress (s.setReg 0 v) c2 = absAddress s c2 ∧
    relAddress s c1 = BitVec.ofInt 32 (s.pc.toNat + c1.toInt)

/-- ld in both forms and ldr complete whenever their effective address is a multiple of 4, put the four bytes there into R[ra], all 32 bits, and change no other register, no memory, not PC, no control state. The address is formed from the old registers. (R45, R100, R101, R102, R103.) -/
def Obligations.LoadsReadTheAddressedWord : Prop :=
  ∀ (s : State) (ra rb : Reg) (c2 : BitVec 17) (c1 : BitVec 22),
    (aligned (absAddress s c2) = true →
      ∃ t, exec (.ldAbs ra c2) s = .next t ∧ t.reg ra = s.wordAt (absAddress s c2) ∧ WritesOnlyReg ra s t) ∧
    (aligned (dispAddress s rb c2) = true →
      ∃ t, exec (.ldDisp ra rb c2) s = .next t ∧ t.reg ra = s.wordAt (dispAddress s rb c2) ∧ WritesOnlyReg ra s t) ∧
    (aligned (relAddress s c1) = true →
      ∃ t, exec (.ldr ra c1) s = .next t ∧ t.reg ra = s.wordAt (relAddress s c1) ∧ WritesOnlyReg ra s t)

/-- st in both forms and str complete whenever their effective address is a multiple of 4, store the four bytes of R[ra] there, and change no other byte, no register, not PC, no control state. (R45, R100, R101, R104, R105.) -/
def Obligations.StoresWriteTheAddressedWord : Prop :=
  ∀ (s : State) (ra rb : Reg) (c2 : BitVec 17) (c1 : BitVec 22),
    (aligned (absAddress s c2) = true →
      ∃ t, exec (.stAbs ra c2) s = .next t ∧ StoresOnlyWord (absAddress s c2) (s.reg ra) s t) ∧
    (aligned (dispAddress s rb c2) = true →
      ∃ t, exec (.stDisp ra rb c2) s = .next t ∧ StoresOnlyWord (dispAddress s rb c2) (s.reg ra) s t) ∧
    (aligned (relAddress s c1) = true →
      ∃ t, exec (.str ra c1) s = .next t ∧ StoresOnlyWord (relAddress s c1) (s.reg ra) s t)

/-- la in both forms and lar complete in every state, with R[ra] the signed sum of R100 or R101 modulo 2^32, whether or not it is a multiple of 4, and change nothing else. (R100, R101, R106, R107.) -/
def Obligations.LoadAddressComputesWithoutAccess : Prop :=
  ∀ (s : State) (ra rb : Reg) (c2 : BitVec 17) (c1 : BitVec 22),
    (∃ t, exec (.laAbs ra c2) s = .next t ∧ t.reg ra = BitVec.ofInt 32 c2.toInt ∧ WritesOnlyReg ra s t) ∧
    (∃ t, exec (.laDisp ra rb c2) s = .next t ∧
      t.reg ra = BitVec.ofInt 32 ((if rb = 0 then 0 else ((s.reg rb).toNat : Int)) + c2.toInt) ∧ WritesOnlyReg ra s t) ∧
    (∃ t, exec (.lar ra c1) s = .next t ∧ t.reg ra = BitVec.ofInt 32 (s.pc.toNat + c1.toInt) ∧ WritesOnlyReg ra s t)

/-- All six load and store forms stop with MisalignedData(address) whenever the low two bits of the address are not 0, and the state they leave is the one they were given, in which PC is advanced already (decision D9). That a fault carries the state it leaves is the model's form (log entry 15). (R43, R102, R103, R104, R105, R212.) -/
def Obligations.MisalignedDataAccessStops : Prop :=
  ∀ (s : State) (ra rb : Reg) (c2 : BitVec 17) (c1 : BitVec 22),
    ((absAddress s c2).toNat % 4 ≠ 0 →
      exec (.ldAbs ra c2) s = .fault (.misalignedData (absAddress s c2) s) ∧
      exec (.stAbs ra c2) s = .fault (.misalignedData (absAddress s c2) s)) ∧
    ((dispAddress s rb c2).toNat % 4 ≠ 0 →
      exec (.ldDisp ra rb c2) s = .fault (.misalignedData (dispAddress s rb c2) s) ∧
      exec (.stDisp ra rb c2) s = .fault (.misalignedData (dispAddress s rb c2) s)) ∧
    ((relAddress s c1).toNat % 4 ≠ 0 →
      exec (.ldr ra c1) s = .fault (.misalignedData (relAddress s c1) s) ∧
      exec (.str ra c1) s = .fault (.misalignedData (relAddress s c1) s))

/-- Op 12 is add and op 14 is sub, with ra, rb, rc. Each completes in every state and for all registers, the same one used twice or thrice included: R[ra] becomes R[rb] + R[rc], or R[rb] - R[rc], modulo 2^32, of the old registers; no other register, no memory, PC, control state changes; no fault. The op numbers are those of the cited rules, which take them from the spec's decision D2. (R121, R123.) -/
def Obligations.AddAndSubtractModuloWord : Prop :=
  DecodesAs 12#5 (fun w => .add (fieldRa w) (fieldRb w) (fieldRc w)) ∧
  DecodesAs 14#5 (fun w => .sub (fieldRa w) (fieldRb w) (fieldRc w)) ∧
  ∀ (s : State) (ra rb rc : Reg),
    (∃ t, exec (.add ra rb rc) s = .next t ∧
      (t.reg ra).toNat = ((s.reg rb).toNat + (s.reg rc).toNat) % 2 ^ 32 ∧ WritesOnlyReg ra s t) ∧
    (∃ t, exec (.sub ra rb rc) s = .next t ∧
      ((t.reg ra).toNat : Int) = ((s.reg rb).toNat - (s.reg rc).toNat : Int) % 2 ^ 32 ∧ WritesOnlyReg ra s t)

/-- Op 15 is neg, its source the rc field. It completes in every state: R[ra] becomes (0 - R[rc]) modulo 2^32, equal to (~R[rc] + 1) modulo 2^32; nothing else changes; no fault. The op number is that of the cited rule, which takes it from the spec's decision D2. (R124.) -/
def Obligations.NegateIsTwosComplement : Prop :=
  DecodesAs 15#5 (fun w => .neg (fieldRa w) (fieldRc w)) ∧
  ∀ (s : State) (ra rc : Reg),
    ∃ t, exec (.neg ra rc) s = .next t ∧ ((t.reg ra).toNat : Int) = (0 - (s.reg rc).toNat : Int) % 2 ^ 32 ∧
      t.reg ra = ~~~(s.reg rc) + 1 ∧ WritesOnlyReg ra s t

/-- addi completes in every state: R[ra] becomes R[rb] plus the signed value of c2 modulo 2^32, also for rb = 0, which reads R[0]; nothing else changes (decisions D15, D16). (R71, R120, R122.) -/
def Obligations.AddImmediateAddsTheSignedConstant : Prop :=
  ∀ (s : State) (ra rb : Reg) (c2 : BitVec 17),
    ∃ t, exec (.addi ra rb c2) s = .next t ∧ ((t.reg ra).toNat : Int) = ((s.reg rb).toNat + c2.toInt) % 2 ^ 32 ∧
      WritesOnlyReg ra s t

/-- Op 22 is or and op 20 is and, with ra, rb, rc. Each completes in every state; every bit of R[ra] becomes the OR, or the AND, of that bit of R[rb] and of R[rc]; nothing else changes; no fault. The op numbers are those of the cited rules, which take them from the spec's decision D2. (R125, R127.) -/
def Obligations.OrAndAndActOnEachBit : Prop :=
  DecodesAs 22#5 (fun w => .or (fieldRa w) (fieldRb w) (fieldRc w)) ∧
  DecodesAs 20#5 (fun w => .and (fieldRa w) (fieldRb w) (fieldRc w)) ∧
  ∀ (s : State) (ra rb rc : Reg),
    (∃ t, exec (.or ra rb rc) s = .next t ∧
      (∀ k, (t.reg ra).getLsbD k = ((s.reg rb).getLsbD k || (s.reg rc).getLsbD k)) ∧ WritesOnlyReg ra s t) ∧
    (∃ t, exec (.and ra rb rc) s = .next t ∧
      (∀ k, (t.reg ra).getLsbD k = ((s.reg rb).getLsbD k && (s.reg rc).getLsbD k)) ∧ WritesOnlyReg ra s t)

/-- ori, andi and not complete in every state. Bit k of R[ra] is the OR, or the AND, of bit k of R[rb] and of bit min(k,16) of c2, or the inverse of bit k of R[rc], for k from 0 to 31; nothing else changes (decisions D15, D33). (R71, R120, R126, R128, R129.) -/
def Obligations.LogicImmediatesSignExtendAndNotComplements : Prop :=
  ∀ (s : State) (ra rb rc : Reg) (c2 : BitVec 17),
    (∃ t, exec (.ori ra rb c2) s = .next t ∧
      (∀ k, k < 32 → (t.reg ra).getLsbD k = ((s.reg rb).getLsbD k || c2.getLsbD (min k 16))) ∧ WritesOnlyReg ra s t) ∧
    (∃ t, exec (.andi ra rb c2) s = .next t ∧
      (∀ k, k < 32 → (t.reg ra).getLsbD k = ((s.reg rb).getLsbD k && c2.getLsbD (min k 16))) ∧ WritesOnlyReg ra s t) ∧
    (∃ t, exec (.not ra rc) s = .next t ∧
      (∀ k, k < 32 → (t.reg ra).getLsbD k = !(s.reg rc).getLsbD k) ∧ WritesOnlyReg ra s t)

/-- Op 26 is shr, the register form when c3[4:0] is 0, else the constant form. Both complete in every state: R[ra] becomes floor(R[rb] / 2^n), R[rb] read as unsigned, n being R[rc] modulo 32 or the constant; nothing else changes; no fault. The count and the choice of the form are R140's, decision D17, and the op number is decision D2; the constant form at count 0, which no word holds, is the model's choice (log entry 20). (R140, R141.) -/
def Obligations.ShiftRightDividesUnsigned : Prop :=
  DecodesAs 26#5 (fun w => if fieldCount w = 0 then .shrReg (fieldRa w) (fieldRb w) (fieldRc w)
    else .shrConst (fieldRa w) (fieldRb w) (fieldCount w)) ∧
  ∀ (s : State) (ra rb rc : Reg) (count : BitVec 5),
    (∃ t, exec (.shrReg ra rb rc) s = .next t ∧
      (t.reg ra).toNat = (s.reg rb).toNat / 2 ^ ((s.reg rc).toNat % 32) ∧ WritesOnlyReg ra s t) ∧
    (∃ t, exec (.shrConst ra rb count) s = .next t ∧
      (t.reg ra).toNat = (s.reg rb).toNat / 2 ^ count.toNat ∧ WritesOnlyReg ra s t)

/-- Op 27 is shra in its two forms. Both complete in every state: R[ra] becomes floor(signed(R[rb]) / 2^n) as a two's-complement word, n being R[rc] modulo 32 or the constant; nothing else changes; no fault. The count and the choice of the form are R140's, decision D17, and the op number is decision D2; the constant form at count 0, which no word holds, is the model's choice (log entry 20). (R140, R142.) -/
def Obligations.ShiftRightArithmeticDividesSigned : Prop :=
  DecodesAs 27#5 (fun w => if fieldCount w = 0 then .shraReg (fieldRa w) (fieldRb w) (fieldRc w)
    else .shraConst (fieldRa w) (fieldRb w) (fieldCount w)) ∧
  ∀ (s : State) (ra rb rc : Reg) (count : BitVec 5),
    (∃ t, exec (.shraReg ra rb rc) s = .next t ∧
      (t.reg ra).toInt = (s.reg rb).toInt / 2 ^ ((s.reg rc).toNat % 32) ∧ WritesOnlyReg ra s t) ∧
    (∃ t, exec (.shraConst ra rb count) s = .next t ∧
      (t.reg ra).toInt = (s.reg rb).toInt / 2 ^ count.toNat ∧ WritesOnlyReg ra s t)

/-- Op 28 is shl in its two forms. Both complete in every state: R[ra] becomes (R[rb] * 2^n) modulo 2^32, n being R[rc] modulo 32 or the constant; nothing else changes; no fault. The count and the choice of the form are R140's, decision D17, and the op number is decision D2; the constant form at count 0, which no word holds, is the model's choice (log entry 20). (R140, R143.) -/
def Obligations.ShiftLeftMultiplies : Prop :=
  DecodesAs 28#5 (fun w => if fieldCount w = 0 then .shlReg (fieldRa w) (fieldRb w) (fieldRc w)
    else .shlConst (fieldRa w) (fieldRb w) (fieldCount w)) ∧
  ∀ (s : State) (ra rb rc : Reg) (count : BitVec 5),
    (∃ t, exec (.shlReg ra rb rc) s = .next t ∧
      (t.reg ra).toNat = (s.reg rb).toNat * 2 ^ ((s.reg rc).toNat % 32) % 2 ^ 32 ∧ WritesOnlyReg ra s t) ∧
    (∃ t, exec (.shlConst ra rb count) s = .next t ∧
      (t.reg ra).toNat = (s.reg rb).toNat * 2 ^ count.toNat % 2 ^ 32 ∧ WritesOnlyReg ra s t)

/-- Op 29 is shc in its two forms. Both complete in every state: bit (k + n) modulo 32 of R[ra] becomes bit k of R[rb], for every k from 0 to 31, n being R[rc] modulo 32 or the constant; nothing else changes; no fault. The count and the choice of the form are R140's, decision D17, and the op number is decision D2; the constant form at count 0, which no word holds, is the model's choice (log entry 20). (R140, R144.) -/
def Obligations.ShiftCircularRotatesLeft : Prop :=
  DecodesAs 29#5 (fun w => if fieldCount w = 0 then .shcReg (fieldRa w) (fieldRb w) (fieldRc w)
    else .shcConst (fieldRa w) (fieldRb w) (fieldCount w)) ∧
  ∀ (s : State) (ra rb rc : Reg) (count : BitVec 5),
    (∃ t, exec (.shcReg ra rb rc) s = .next t ∧
      (∀ k, k < 32 → (t.reg ra).getLsbD ((k + ((s.reg rc).toNat % 32)) % 32) = (s.reg rb).getLsbD k) ∧ WritesOnlyReg ra s t) ∧
    (∃ t, exec (.shcConst ra rb count) s = .next t ∧
      (∀ k, k < 32 → (t.reg ra).getLsbD ((k + count.toNat) % 32) = (s.reg rb).getLsbD k) ∧ WritesOnlyReg ra s t)

/-- Op 8 with condition 0 to 5 is brnv, br, brzr, brnz, brpl, brmi. Each completes in every state: PC becomes R[rb], unchanged in all 32 bits, when the condition is always, or R[rc] is zero, not zero, at least 0 as a signed number, negative; else PC stays at the next instruction, as it does for brnv. No register, memory or control state changes. The op and condition numbers are those of the cited rules, which take them from the spec's decisions D2 and D3. (R163, R166, R167, R169, R171, R173.) -/
def Obligations.BranchesGoToTheRegisterOnTheirCondition : Prop :=
  DecodesAsCond 8#5 0#3 (fun _ => .brnv) ∧ DecodesAsCond 8#5 1#3 (fun w => .br (fieldRb w)) ∧
  DecodesAsCond 8#5 2#3 (fun w => .brzr (fieldRb w) (fieldRc w)) ∧
  DecodesAsCond 8#5 3#3 (fun w => .brnz (fieldRb w) (fieldRc w)) ∧
  DecodesAsCond 8#5 4#3 (fun w => .brpl (fieldRb w) (fieldRc w)) ∧
  DecodesAsCond 8#5 5#3 (fun w => .brmi (fieldRb w) (fieldRc w)) ∧
  ∀ (s : State) (rb rc : Reg),
    (∃ t, exec .brnv s = .next t ∧ BranchesTo False (s.reg rb) [] s t) ∧
    (∃ t, exec (.br rb) s = .next t ∧ BranchesTo True (s.reg rb) [] s t) ∧
    (∃ t, exec (.brzr rb rc) s = .next t ∧ BranchesTo ((s.reg rc).toNat = 0) (s.reg rb) [] s t) ∧
    (∃ t, exec (.brnz rb rc) s = .next t ∧ BranchesTo ((s.reg rc).toNat ≠ 0) (s.reg rb) [] s t) ∧
    (∃ t, exec (.brpl rb rc) s = .next t ∧ BranchesTo (0 ≤ (s.reg rc).toInt) (s.reg rb) [] s t) ∧
    (∃ t, exec (.brmi rb rc) s = .next t ∧ BranchesTo ((s.reg rc).toInt < 0) (s.reg rb) [] s t)

/-- Op 9 with condition 0 to 5 is brlnv, brl, brlzr, brlnz, brlpl, brlmi. Each completes in every state, ra equal to rb or rc included: R[ra] becomes PC whether or not the branch is taken; PC becomes the old R[rb] exactly when the condition holds of the old R[rc] (brlpl including zero); nothing else changes. The op and condition numbers are those of the cited rules, which take them from the spec's decisions D2 and D3; that the old R[rb] and the old R[rc] are used is R9 and R162, decision D14 (log entry 27). (R9, R162, R164, R165, R168, R170, R172, R174.) -/
def Obligations.BranchAndLinkAlwaysSavesPc : Prop :=
  DecodesAsCond 9#5 0#3 (fun w => .brlnv (fieldRa w)) ∧ DecodesAsCond 9#5 1#3 (fun w => .brl (fieldRa w) (fieldRb w)) ∧
  DecodesAsCond 9#5 2#3 (fun w => .brlzr (fieldRa w) (fieldRb w) (fieldRc w)) ∧
  DecodesAsCond 9#5 3#3 (fun w => .brlnz (fieldRa w) (fieldRb w) (fieldRc w)) ∧
  DecodesAsCond 9#5 4#3 (fun w => .brlpl (fieldRa w) (fieldRb w) (fieldRc w)) ∧
  DecodesAsCond 9#5 5#3 (fun w => .brlmi (fieldRa w) (fieldRb w) (fieldRc w)) ∧
  ∀ (s : State) (ra rb rc : Reg),
    (∃ t, exec (.brlnv ra) s = .next t ∧ t.reg ra = s.pc ∧ BranchesTo False (s.reg rb) [ra] s t) ∧
    (∃ t, exec (.brl ra rb) s = .next t ∧ t.reg ra = s.pc ∧ BranchesTo True (s.reg rb) [ra] s t) ∧
    (∃ t, exec (.brlzr ra rb rc) s = .next t ∧ t.reg ra = s.pc ∧ BranchesTo ((s.reg rc).toNat = 0) (s.reg rb) [ra] s t) ∧
    (∃ t, exec (.brlnz ra rb rc) s = .next t ∧ t.reg ra = s.pc ∧ BranchesTo ((s.reg rc).toNat ≠ 0) (s.reg rb) [ra] s t) ∧
    (∃ t, exec (.brlpl ra rb rc) s = .next t ∧ t.reg ra = s.pc ∧ BranchesTo (0 ≤ (s.reg rc).toInt) (s.reg rb) [ra] s t) ∧
    (∃ t, exec (.brlmi ra rb rc) s = .next t ∧ t.reg ra = s.pc ∧ BranchesTo ((s.reg rc).toInt < 0) (s.reg rb) [ra] s t)

/-- The two reserved rows stop in every state with ReservedCondition; a step that fetches any word with op 8 or 9 and condition 6 or 7 is the fault ReservedCondition of that very word, which leaves PC advanced by 4 and no register written, not the link either, nor memory, Run, IE, IPC or II (decision D4). That a fault carries the state it leaves is the model's form (log entry 15). (R78, R160, R161, R162, R212.) -/
def Obligations.ReservedConditionsStop : Prop :=
  (∀ s : State, (∃ v, exec .brReservedCond s = .fault (.reservedCondition v s)) ∧
    (∃ v, exec .brlReservedCond s = .fault (.reservedCondition v s))) ∧
  ∀ (s : State) (w : Word), Executes s → fetch config s = .next w → (fieldOp w = 8#5 ∨ fieldOp w = 9#5) →
    6 ≤ (fieldCond w).toNat → ∃ t, step s = .fault (.reservedCondition w t) ∧ LeavesAllButPc s t

/-- If a step runs a br or brl form whose condition holds (br, brl; brzr, brlzr with R[rc] zero; brnz, brlnz with R[rc] not zero; brpl, brlpl with R[rc] at least 0; brmi, brlmi with R[rc] negative), R[rb] is not a multiple of 4, and no request is accepted at the next boundary (IE is 0 or none is presented there), the step completes with PC = R[rb], and the step after it is MisalignedFetch(R[rb]), which changes no register, no memory, not PC, no control state (decision D10). That the requests to come stand in a list is the model's (log entry 6), and so is the fault's carrying the state it leaves (log entry 15). (R24, R44, R160, R161, R162, R212.) -/
def Obligations.MisalignedTargetIsCaughtAtTheNextFetch : Prop :=
  ∀ (s : State) (i : Instr) (ra rb rc : Reg), RunsInstr s i →
    ((i = .br rb ∨ i = .brl ra rb) ∨
      ((i = .brzr rb rc ∨ i = .brlzr ra rb rc) ∧ s.reg rc = 0#32) ∨
      ((i = .brnz rb rc ∨ i = .brlnz ra rb rc) ∧ s.reg rc ≠ 0#32) ∨
      ((i = .brpl rb rc ∨ i = .brlpl ra rb rc) ∧ 0 ≤ (s.reg rc).toInt) ∨
      ((i = .brmi rb rc ∨ i = .brlmi ra rb rc) ∧ (s.reg rc).toInt < 0)) →
    (s.ie = false ∨ (afterFetch s).presented = none) → (s.reg rb).toNat % 4 ≠ 0 →
    ∃ t u, step s = .next t ∧ t.pc = s.reg rb ∧ step t = .fault (.misalignedFetch (s.reg rb) u) ∧ LeavesAll t u

/-- Op 0 is nop, the all-zero word among its words; it completes in every state and leaves the state after the fetch as it is. The op number is that of the cited rule, which takes it from the spec's decision D2. (R190.) -/
def Obligations.NopOnlyAdvancesPc : Prop :=
  DecodesAs 0#5 (fun _ => .nop) ∧ fieldOp 0#32 = 0#5 ∧ ∀ s : State, exec .nop s = .next s

/-- Op 31 is stop. It completes in every state with Run = 0 and every register, memory, PC, IE, IPC, II as before; the next step is the halt, whatever IE and the pending request are; and no instruction that completes turns Run from 0 to 1. That the absence of a step is answered as a fault named halted is the model's choice (log entry 8); the op number is decision D2. (R191, R214.) -/
def Obligations.StopHaltsForGood : Prop :=
  DecodesAs 31#5 (fun _ => .stop) ∧
  (∀ s : State, ∃ t, exec .stop s = .next t ∧ t.run = false ∧ KeepsRegs [] s t ∧ KeepsMemory s t ∧ t.pc = s.pc ∧
    t.ie = s.ie ∧ t.ipc = s.ipc ∧ t.ii = s.ii ∧ KeepsInterface s t ∧ step t = .fault .halted) ∧
  ∀ (i : Instr) (s t : State), exec i s = .next t → s.run = false → t.run = false

/-- Op 10 is een and op 11 is edi (decision D2). Both complete in every state, write IE alone (een 1, edi 0, whatever it was), and leave IPC and II. After een in a running machine a request presented at the next boundary is taken by the next step, before the instruction after een, as R215 and R216 say (decision D19). After edi the next step is the step with the request at its boundary withdrawn, and if it completes no request has been acknowledged and IPC and II change only if it runs ri. An instruction that turns IE from 0 to 1 is een or rfi. That the requests to come stand in a list and the acknowledgement is a field is the model's (log entries 6 and 7). (R192, R193, R214, R215, R216.) -/
def Obligations.EnableAndDisableActAtTheNextBoundary : Prop :=
  DecodesAs 10#5 (fun _ => .een) ∧ DecodesAs 11#5 (fun _ => .edi) ∧
  (∀ s : State, ∃ t, exec .een s = .next t ∧ t.ie = true ∧ KeepsRegs [] s t ∧ KeepsMemory s t ∧ t.pc = s.pc ∧
    t.run = s.run ∧ t.ipc = s.ipc ∧ t.ii = s.ii ∧ KeepsInterface s t ∧
    (∀ q, s.run = true → t.presented = some q → ∃ u, step t = .next u ∧ u.ipc = s.pc ∧ u.pc = entryAddress q.vect)) ∧
  (∀ s : State, ∃ t, exec .edi s = .next t ∧ t.ie = false ∧ KeepsRegs [] s t ∧ KeepsMemory s t ∧ t.pc = s.pc ∧
    t.run = s.run ∧ t.ipc = s.ipc ∧ t.ii = s.ii ∧ KeepsInterface s t ∧
    step t = step { t with irq := none :: t.irq.tail } ∧
    ∀ u, step t = .next u → u.iack = false ∧ ((u.ipc ≠ t.ipc ∨ u.ii ≠ t.ii) → ∃ ra rb, RunsInstr t (.ri ra rb))) ∧
  ∀ (i : Instr) (s t : State), exec i s = .next t → s.ie = false → t.ie = true → i = .een ∨ i = .rfi

/-- Op 30 is rfi. It completes in every state, inside a handler or not: PC becomes IPC, IE becomes 1, IPC, II, Run, every register and memory stay. In a running machine a request presented at the next boundary is taken there and saves the same address in IPC again; with none presented and IPC not a multiple of 4 the next step is MisalignedFetch(IPC), which changes no register, no memory, not PC, no control state. What the next boundary does is R215 and R216 (decision D19) and R44 (decision D10), the list of requests and the fault's carrying the state it leaves are the model's (log entries 6 and 15), and the op number is decision D2. (R44, R194, R212, R214, R215, R216, R219.) -/
def Obligations.ReturnFromInterruptRestoresPcAndEnables : Prop :=
  DecodesAs 30#5 (fun _ => .rfi) ∧
  ∀ s : State, ∃ t, exec .rfi s = .next t ∧ t.pc = s.ipc ∧ t.ie = true ∧ t.ipc = s.ipc ∧ t.ii = s.ii ∧ t.run = s.run ∧
    KeepsRegs [] s t ∧ KeepsMemory s t ∧ KeepsInterface s t ∧
    (∀ q, s.run = true → s.presented = some q → ∃ u, step t = .next u ∧ u.ipc = s.ipc ∧ u.pc = entryAddress q.vect) ∧
    (s.run = true → s.presented = none → s.ipc.toNat % 4 ≠ 0 →
      ∃ u, step t = .fault (.misalignedFetch s.ipc u) ∧ LeavesAll t u)

/-- For ra not equal to rb svi completes in every state: R[ra][15:0] = II, R[rb] = IPC, and no other register, no memory, PC, Run, IE, IPC, II or request changes; nothing is said of R[ra][31:16], a free value. With ra = rb it is the model fault ConflictingWrite, of the fetched word when a step runs it, and neither register nor anything else but PC, which the fetch advanced, has changed (decisions D18, D23). That a fault carries the state it leaves is the model's form (log entry 15). (R29, R195, R212.) -/
def Obligations.SaveInterruptStateWritesTwoRegisters : Prop :=
  (∀ (s : State) (ra rb : Reg), ra ≠ rb →
    ∃ t, exec (.svi ra rb) s = .next t ∧ (t.reg ra).extractLsb' 0 16 = s.ii ∧ t.reg rb = s.ipc ∧ KeepsRegs [ra, rb] s t ∧
      KeepsMemory s t ∧ t.pc = s.pc ∧ KeepsControl s t ∧ t.irq = s.irq ∧ t.iack = s.iack) ∧
  (∀ (s : State) (ra : Reg), ∃ v, exec (.svi ra ra) s = .fault (.conflictingWrite v s)) ∧
  (∀ (s : State) (w : Word), Executes s → fetch config s = .next w → fieldOp w = 16#5 → fieldRa w = fieldRb w →
    ∃ t, step s = .fault (.conflictingWrite w t) ∧ LeavesAllButPc s t)

/-- For every configuration and ra not equal to rb, saving the interrupt state leaves II in R[ra][15:0] and IPC in R[rb]; with SVI_UPPER = unchanged R[ra][31:16] is as before, with zero it is 0 (decision D23). (R6, R195.) -/
def Obligations.SaveUpperHalfFollowsTheParameter : Prop :=
  ∀ (c : Config) (s : State) (ra rb : Reg), ra ≠ rb →
    ((saveInterruptState c ra rb s).reg ra).extractLsb' 0 16 = s.ii ∧ (saveInterruptState c ra rb s).reg rb = s.ipc ∧
    (c.sviUpper = .unchanged →
      ((saveInterruptState c ra rb s).reg ra).extractLsb' 16 16 = (s.reg ra).extractLsb' 16 16) ∧
    (c.sviUpper = .zero → ((saveInterruptState c ra rb s).reg ra).extractLsb' 16 16 = 0#16)

/-- ri completes in every state and for all registers: II = R[ra][15:0], IPC = R[rb]; no general register, no memory, PC, Run, IE or request changes (that II comes from the low half is from general knowledge, K17). (R28, R29, R196.) -/
def Obligations.RestoreInterruptStateReadsTwoRegisters : Prop :=
  ∀ (s : State) (ra rb : Reg),
    ∃ t, exec (.ri ra rb) s = .next t ∧ t.ii.toNat = (s.reg ra).toNat % 2 ^ 16 ∧ t.ipc = s.reg rb ∧ KeepsRegs [] s t ∧
      KeepsMemory s t ∧ t.pc = s.pc ∧ t.run = s.run ∧ t.ie = s.ie ∧ KeepsInterface s t

/-- If svi ra, rb completed in s, then in every later state whose R[ra] and R[rb] are as svi left them, ri ra, rb completes with II and IPC as they were in s, whatever the upper half of R[ra] holds. (R195, R196, R220.) -/
def Obligations.SavedInterruptStateIsRestored : Prop :=
  ∀ (s t u : State) (ra rb : Reg), exec (.svi ra rb) s = .next t → u.reg ra = t.reg ra → u.reg rb = t.reg rb →
    ∃ v, exec (.ri ra rb) u = .next v ∧ v.ii = s.ii ∧ v.ipc = s.ipc

/-- Each of the four unused rows stops in every state with IllegalOpcode; a step that fetches any word with one of these operation codes is the fault IllegalOpcode of that very word, which leaves PC advanced by 4 and every register, memory, Run, IE, IPC and II as they were, and the machine goes no further (decision D5). That a fault carries the state it leaves is the model's form (log entry 15). (R76, R212.) -/
def Obligations.UnusedOperationCodesStop : Prop :=
  (∀ s : State, ∀ i ∈ [Instr.unusedOp7, .unusedOp18, .unusedOp19, .unusedOp25],
    ∃ v, exec i s = .fault (.illegalOpcode v s)) ∧
  ∀ (s : State) (w : Word), Executes s → fetch config s = .next w → fieldOp w ∈ [7#5, 18#5, 19#5, 25#5] →
    ∃ t, step s = .fault (.illegalOpcode w t) ∧ LeavesAllButPc s t

/-- If Run is 1, no request is accepted, PC is a multiple of 4 and the four bytes at PC decode to i, then step is exec of i on the state whose PC is PC + 4 modulo 2^32 and whose registers, memory, Run, IE, IPC, II are unchanged, the boundary's answer used up; a fault that carries a word carries the fetched one (decisions D7, D10, D13). That the boundary's answer is used up is the model's choice (log entry 6), and so is the fetched word in the fault in place of the row's (log entry 14). (R23, R41, R44, R52, R214.) -/
def Obligations.StepRunsTheDecodedInstruction : Prop :=
  ∀ (s : State) (i : Instr) (rest : List Byte), Executes s → aligned s.pc = true →
    config.decodeBytes [s.byte s.pc, s.byte (s.pc + 1), s.byte (s.pc + 2), s.byte (s.pc + 3)] = .ok (i, rest) →
    step s = recordWord (s.wordAt s.pc) (exec i (afterFetch s)) ∧
    (afterFetch s).pc = s.pc + 4 ∧ KeepsRegs [] s (afterFetch s) ∧ KeepsMemory s (afterFetch s) ∧
    KeepsControl s (afterFetch s) ∧ (afterFetch s).irq = s.irq.tail

/-- For every state s and word w, the state s.withFetchWord holds w at its PC and its next step is exec of w's decoding on the state after the fetch, whatever Run, PC, IE and the requests were. This is the model's own way in (log entry 16). (R23, R42, R214.) -/
def Obligations.PlacedWordIsTheNextInstruction : Prop :=
  ∀ (s : State) (w : Word),
    fetch config (s.withFetchWord 32 w.toNat) = .next w ∧
    step (s.withFetchWord 32 w.toNat) = recordWord w (exec (decodeWord w) (afterFetch (s.withFetchWord 32 w.toNat))) ∧
    KeepsRegs [] s (s.withFetchWord 32 w.toNat) ∧ KeepsMemoryOutside (s.withFetchWord 32 w.toNat).pc s (s.withFetchWord 32 w.toNat)

/-- The step answers a state with IPC the old PC, II the device's information, IE 0, PC the vector number times 16, Run 1, the request acknowledged, and every register and all memory as before, whatever word stands at PC and whether or not PC is a multiple of 4 (decisions D19, D30); the list of requests to come loses its head and the acknowledgement line is 1. That the requests stand in a list of which each step uses one up, and that the line is a field of State, is the model's choice (log entries 6 and 7). (R214, R215, R216, R218.) -/
def Obligations.AcceptedRequestEntersTheHandler : Prop :=
  ∀ (s : State) (q : IrqRequest), Accepts s q →
    ∃ t, step s = .next t ∧ t.ipc = s.pc ∧ t.ii = q.info ∧ t.ie = false ∧ t.pc.toNat = 16 * q.vect.toNat ∧
      t.run = true ∧ t.iack = true ∧ KeepsRegs [] s t ∧ KeepsMemory s t ∧ t.irq = s.irq.tail ∧ t.draws = s.draws

/-- With IE = 0 the step from a state with a request at this boundary is the step from the same state without one; neither acknowledges a request. That a disabled request is used up at its boundary, so that both steps leave the same list, and that the acknowledgement line is a field which is 0 afterwards, is the model's choice (log entries 6 and 7). (R27, R32, R214.) -/
def Obligations.DisabledRequestsHaveNoEffect : Prop :=
  ∀ (s : State) (q : IrqRequest) (rest : List (Option IrqRequest)), s.ie = false →
    step { s with irq := some q :: rest } = step { s with irq := none :: rest } ∧
    ∀ t, step { s with irq := some q :: rest } = .next t → t.iack = false

/-- For every accepted request, the entry step followed by rfi gives PC the interrupted address and IE 1, with every register, all memory and Run as before the interrupt. (R194, R215, R219, R220.) -/
def Obligations.InterruptedProgramResumes : Prop :=
  ∀ (s : State) (q : IrqRequest), Accepts s q →
    ∃ t u, step s = .next t ∧ exec .rfi t = .next u ∧ u.pc = s.pc ∧ u.ie = s.ie ∧ u.run = s.run ∧
      KeepsRegs [] s u ∧ KeepsMemory s u

/-- Under the default address map no step is refused. A step is the fault halted, the model's own name for having no step (log entry 8), only when Run = 0; MisalignedFetch only of PC when an instruction is due and PC is not a multiple of 4 (D10); NoMemory never under the default map (D29); MisalignedData only of the effective address of the ld, ldr, st or str form that runs, which is then not a multiple of 4 (D9); IllegalOpcode, ReservedCondition, ConflictingWrite only of the fetched word, when it has an unused code (D5), a reserved condition (D4), or is svi with ra = rb (D23). MisalignedFetch leaves every register, memory, PC and the control state as they were, and each of the others leaves PC advanced by 4 and the rest as it was; that a fault carries the state it leaves is the model's form (log entry 15). (R10, R43, R44, R76, R78, R195, R212, R214, R218.) -/
def Obligations.StepFaultsAreThoseOfTheSpec : Prop :=
  (∀ (s : State) (e : Refusal), step s ≠ .refused e) ∧
  ∀ (s : State) (e : Fault), step s = .fault e →
    match e with
    | .halted => s.run = false
    | .misalignedFetch pc t => Executes s ∧ pc = s.pc ∧ pc.toNat % 4 ≠ 0 ∧ LeavesAll s t
    | .noMemory _ _ => False
    | .misalignedData a t => a.toNat % 4 ≠ 0 ∧ LeavesAllButPc s t ∧ ∃ ra rb c2 c1,
        ((RunsInstr s (.ldAbs ra c2) ∨ RunsInstr s (.stAbs ra c2)) ∧ a = absAddress s c2) ∨
        ((RunsInstr s (.ldDisp ra rb c2) ∨ RunsInstr s (.stDisp ra rb c2)) ∧ a = dispAddress s rb c2) ∨
        ((RunsInstr s (.ldr ra c1) ∨ RunsInstr s (.str ra c1)) ∧ a = relAddress (afterFetch s) c1)
    | .illegalOpcode w t =>
      Executes s ∧ fetch config s = .next w ∧ fieldOp w ∈ [7#5, 18#5, 19#5, 25#5] ∧ LeavesAllButPc s t
    | .reservedCondition w t =>
      Executes s ∧ fetch config s = .next w ∧ fieldOp w ∈ [8#5, 9#5] ∧ 6 ≤ (fieldCond w).toNat ∧ LeavesAllButPc s t
    | .conflictingWrite w t =>
      Executes s ∧ fetch config s = .next w ∧ fieldOp w = 16#5 ∧ fieldRa w = fieldRb w ∧ LeavesAllButPc s t

/-- If an instruction is due and PC is not a multiple of 4, the step is MisalignedFetch(PC), which leaves every register, memory, PC and the control state as they were (decision D10); and for every configuration whose map has no readable region at PC, a fetch that passes the alignment check is NoMemory(PC) and leaves the state it found. That a fault carries the state it leaves is the model's form (log entry 15). (R24, R44, R47, R212, R214.) -/
def Obligations.MisalignedFetchStops : Prop :=
  (∀ s : State, Executes s → s.pc.toNat % 4 ≠ 0 →
    ∃ t, step s = .fault (.misalignedFetch s.pc t) ∧ LeavesAll s t) ∧
  (∀ (c : Config) (s : State), PassesAlignment c s.pc → (∀ g ∈ c.memMap, Holds g s.pc → g.readable = false) →
    fetch c s = .fault (.noMemory s.pc s))

/-- If a step runs an instruction whose operation code is not that of br, brl or rfi and completes, PC is the old PC plus 4 modulo 2^32 (decision D13). (R23, R24, R176.) -/
def Obligations.OtherInstructionsFallThrough : Prop :=
  ∀ (s t : State) (i : Instr), RunsInstr s i → step s = .next t → opcode i ∉ [8#5, 9#5, 30#5] →
    t.pc.toNat = (s.pc.toNat + 4) % 2 ^ 32

/-- If a step runs str ra, 0 and completes, the next fetch gives the old R[ra]. That a store is seen by the next fetch is the spec's decision D26; a pipelined implementation may differ (log entry 17). (R49, R52, R105.) -/
def Obligations.StoreIntoTheNextInstructionIsFetched : Prop :=
  ∀ (s t : State) (ra : Reg), RunsInstr s (.str ra 0#22) → step s = .next t → fetch config t = .next (s.reg ra)

/-- If a step answers a state with Run = 0, the step ran a word that decodes to stop; an interrupt entry and every other instruction leave Run 1. (R26, R191, R227.) -/
def Obligations.OnlyStopClearsRun : Prop :=
  ∀ s t : State, step s = .next t → t.run = false → RunsInstr s .stop

/-- If a step changes IE from 0 to 1 it ran een or rfi; if it changes IE from 1 to 0 it accepted a request or ran edi. (R27, R192, R193, R194, R215.) -/
def Obligations.ExceptionEnableChangesOnlyAsListed : Prop :=
  ∀ s t : State, step s = .next t →
    (s.ie = false → t.ie = true → RunsInstr s .een ∨ RunsInstr s .rfi) ∧
    (s.ie = true → t.ie = false → (∃ q, Accepts s q) ∨ RunsInstr s .edi)

/-- If a step changes IPC or II, it accepted a request or ran ri. (R28, R29, R197, R215.) -/
def Obligations.InterruptRegistersChangeOnlyAsListed : Prop :=
  ∀ s t : State, step s = .next t → (t.ipc ≠ s.ipc ∨ t.ii ≠ s.ii) →
    (∃ q, Accepts s q) ∨ ∃ ra rb, RunsInstr s (.ri ra rb)

/-- Every step that completes either leaves every byte of memory as it was, or ran st or str, and then the four bytes at its effective address hold its source register and every other byte is as before. (R31, R42, R45, R104, R105, R108.) -/
def Obligations.MemoryChangesOnlyByStores : Prop :=
  ∀ s t : State, step s = .next t →
    KeepsMemory s t ∨
    ∃ ra a, HoldsWord a (s.reg ra) t ∧ KeepsMemoryOutside a s t ∧
      ((∃ c2, RunsInstr s (.stAbs ra c2) ∧ a = absAddress s c2) ∨
       (∃ rb c2, RunsInstr s (.stDisp ra rb c2) ∧ a = dispAddress s rb c2) ∨
       (∃ c1, RunsInstr s (.str ra c1) ∧ a = relAddress (afterFetch s) c1))

/-- For every step that completes, the acknowledgement line is 1 afterwards exactly when the step accepted a request. That the line is held in State is the model's own (log entry 7). (R32, R213, R215.) -/
def Obligations.AcknowledgeMarksExactlyTheAcceptedRequests : Prop :=
  ∀ s t : State, step s = .next t → (t.iack = true ↔ ∃ q, Accepts s q)

/-- For every image, PC is 0, Run 1, IE 0, no request is accepted, the first fetch reads the word at address 0, and the last byte the image gives for an address is what that address reads. PC, Run and IE at reset are the spec's decision D24; that the last of several bytes for one address stands is the model's choice (log entry 22), and so is State.boot as the way a program comes to run (log entry 16). (R36, R47, R88, R240, R241.) -/
def Obligations.BootStartsAtTheResetAddress : Prop :=
  ∀ img : Image, (State.boot img).pc = 0#32 ∧ (State.boot img).run = true ∧ (State.boot img).ie = false ∧
    Executes (State.boot img) ∧ fetch config (State.boot img) = .next ((State.boot img).wordAt 0#32) ∧
    ∀ (before after : Image) (a : Word) (v : Byte), img = before ++ (a.toNat, v) :: after →
      (∀ c ∈ after, c.1 ≠ a.toNat) → (State.boot img).byte a = v

/-- After reset with an image loaded every general register, IPC and II are 0, and a byte that the image does not give counts as not written, so that it reads as the free value of its address. The spec leaves all of these unspecified: the zeros of the registers are the model's choice (log entry 9), and so is the form of the free value (log entry 10), of which nothing is said. (R36, R240.) -/
def Obligations.BootValuesTheModelChose : Prop :=
  ∀ (img : Image) (i : Reg) (a : Word), (State.boot img).reg i = 0#32 ∧ (State.boot img).ipc = 0#32 ∧
    (State.boot img).ii = 0#16 ∧ ((∀ c ∈ img, c.1 ≠ a.toNat) → (State.boot img).mem.written a.toNat = none)

/-- For every configuration and every well-formed instruction that has a line in the syntax table (all but the unused codes and conditions), assembling its mnemonic and operands gives the word of its encoding, under any symbol table; and a line that stands alone after .org places the bytes of that word in the configured byte order. Operand ranges are the spec's decision D31; that the assembler takes the configuration's encoding and byte order is R6. (R6, R41, R83, R84, R85, R86, R88, R89.) -/
def Obligations.AssemblerEmitsTheEncoding : Prop :=
  ∀ (c : Config) (tab : Asm.SymbolTable) (i : Instr) (m : Asm.Mnemonic) (ops : List Asm.Operand) (a : Nat), i.wf = true →
    Asm.lineOf i = some (m, ops) → Asm.assembleWord c tab m ops = .ok (c.encode i) ∧
    (a + 4 ≤ 2 ^ 32 → Asm.assemble c [⟨none, some (.org (.num a))⟩, ⟨none, some (.machine m ops)⟩] =
      .ok (((bytesOfWord c.byteOrder (c.encode i)).zipIdx a).map Prod.swap))

/-- For c2 outside -65536 to 65535 in the absolute, displacement (rb not 0) and immediate forms, c1 outside -2097152 to 2097151, a constant shift count outside 1 to 31 and a condition number outside 0 to 5 of the general br and brl forms the assembler answers outOfRange; for ld, st and la with the base r0 it answers baseRegisterZero. Constants and shift counts are R82 and R85, decision D31. That the general forms take the conditions 0 to 5 under every configuration is the model's choice (log entry 23), and so is refusing the base r0, one of the two ways of R84 (log entry 21). (R82, R83, R84, R85, R86, R100.) -/
def Obligations.AssemblerRefusesWhatDoesNotFit : Prop :=
  ∀ (c : Config) (tab : Asm.SymbolTable) (ra rb rc : Reg) (n : Int),
    ((n < -65536 ∨ 65535 < n) → ∀ m ∈ [Asm.Mnemonic.ld, .st, .la],
      Asm.assembleWord c tab m [.reg ra, .value (.num n)] = .error .outOfRange ∧
      (rb ≠ 0 → Asm.assembleWord c tab m [.reg ra, .based (.num n) rb] = .error .outOfRange)) ∧
    ((n < -65536 ∨ 65535 < n) → ∀ m ∈ [Asm.Mnemonic.addi, .ori, .andi],
      Asm.assembleWord c tab m [.reg ra, .reg rb, .value (.num n)] = .error .outOfRange) ∧
    ((n < -2097152 ∨ 2097151 < n) → ∀ m ∈ [Asm.Mnemonic.ldr, .str, .lar],
      Asm.assembleWord c tab m [.reg ra, .value (.num n)] = .error .outOfRange) ∧
    ((n < 1 ∨ 31 < n) → ∀ m ∈ [Asm.Mnemonic.shr, .shra, .shl, .shc],
      Asm.assembleWord c tab m [.reg ra, .reg rb, .value (.num n)] = .error .outOfRange) ∧
    ((n < 0 ∨ 5 < n) →
      Asm.assembleWord c tab .br [.reg rb, .reg rc, .value (.num n)] = .error .outOfRange ∧
      Asm.assembleWord c tab .brl [.reg ra, .reg rb, .reg rc, .value (.num n)] = .error .outOfRange) ∧
    (∀ m ∈ [Asm.Mnemonic.ld, .st, .la], Asm.assembleWord c tab m [.reg ra, .based (.num n) 0] = .error .baseRegisterZero)

/-- For every configuration, a program of .org a and one data directive with any number of values: .dc places the four bytes of each 32-bit value, .dch the two of each 16-bit value, .dcb each 8-bit value, one after the other from a on, the bytes of a value most significant first under BYTE_ORDER = big-endian (the spec's decision D7) and least significant first under little-endian. .db n, .dh n and .dw n place nothing and reserve n, 2n and 4n bytes: a byte that .dcb places next stands that far from a. (R6, R41, R87.) -/
def Obligations.DataDirectivesPlaceBytesInOrder : Prop :=
  ∀ (c : Config) (a : Nat) (ws : List Word) (hs : List Half) (bs : List Byte) (b : Byte) (n : Nat), a < 2 ^ 32 →
    (a + 4 * ws.length ≤ 2 ^ 32 →
      Asm.assemble c [⟨none, some (.org (.num a))⟩, ⟨none, some (.dc (ws.map fun w => .num w.toNat))⟩] =
        .ok (((ws.flatMap fun w => c.byteOrder.arrange
          [w.extractLsb' 24 8, w.extractLsb' 16 8, w.extractLsb' 8 8, w.extractLsb' 0 8]).zipIdx a).map Prod.swap)) ∧
    (a + 2 * hs.length ≤ 2 ^ 32 →
      Asm.assemble c [⟨none, some (.org (.num a))⟩, ⟨none, some (.dch (hs.map fun h => .num h.toNat))⟩] =
        .ok (((hs.flatMap fun h => c.byteOrder.arrange [h.extractLsb' 8 8, h.extractLsb' 0 8]).zipIdx a).map Prod.swap)) ∧
    (a + bs.length ≤ 2 ^ 32 →
      Asm.assemble c [⟨none, some (.org (.num a))⟩, ⟨none, some (.dcb (bs.map fun v => .num v.toNat))⟩] =
        .ok ((bs.zipIdx a).map Prod.swap)) ∧
    (a + n < 2 ^ 32 →
      Asm.assemble c [⟨none, some (.org (.num a))⟩, ⟨none, some (.db (.num n))⟩, ⟨none, some (.dcb [.num b.toNat])⟩] =
        .ok [(a + n, b)]) ∧
    (a + 2 * n < 2 ^ 32 →
      Asm.assemble c [⟨none, some (.org (.num a))⟩, ⟨none, some (.dh (.num n))⟩, ⟨none, some (.dcb [.num b.toNat])⟩] =
        .ok [(a + 2 * n, b)]) ∧
    (a + 4 * n < 2 ^ 32 →
      Asm.assemble c [⟨none, some (.org (.num a))⟩, ⟨none, some (.dw (.num n))⟩, ⟨none, some (.dcb [.num b.toNat])⟩] =
        .ok [(a + 4 * n, b)])
end

