-- ==== Sys2Proof/Laws/Decode.lean ====
section
/-! SUPPORT. The fields of an encoded word, one lemma per field of each format, so that no later proof takes a word apart. -/

namespace Sys2Proof

/-! ## Appending and extracting -/

/-- The upper part of an append. -/
theorem extract_append_high {m n : Nat} (x : BitVec m) (y : BitVec n) : (x ++ y).extractLsb' n m = x := by
  ext i hi
  simp [BitVec.getLsbD_append, BitVec.getLsbD_eq_getElem hi]

/-- A field that lies in the lower part of an append. -/
theorem extract_append_low {m n start len : Nat} (x : BitVec m) (y : BitVec n) (h : start + len ≤ n) :
    (x ++ y).extractLsb' start len = y.extractLsb' start len := by
  ext i hi
  simp [BitVec.getLsbD_append, show start + i < n by omega]

/-- A field that lies in the upper part of an append. -/
theorem extract_append_mid {m n start len : Nat} (x : BitVec m) (y : BitVec n) (h : n ≤ start) :
    (x ++ y).extractLsb' start len = x.extractLsb' (start - n) len := by
  ext i hi
  simp [BitVec.getLsbD_append, show ¬ start + i < n by omega, show start + i - n = start - n + i by omega]

/-- All of a vector. -/
theorem extract_all {n : Nat} (x : BitVec n) : x.extractLsb' 0 n = x := by
  ext i hi
  simp

@[simp] theorem toFin_regBits (i : Reg) : (regBits i).toFin = i := rfl

/-! ## A field put into a word and taken out again -/

/-- A field, or the low part of one, where it was put. -/
theorem extract_putField {n k lo : Nat} (v : BitVec n) (hk : k ≤ n) (h : lo + n ≤ 32) :
    (putField lo v).extractLsb' lo k = v.extractLsb' 0 k := by
  ext i hi
  simp [putField, show lo + i < 32 by omega, show ¬ lo + i < lo by omega, show lo + i - lo = i by omega]

/-- No bit of a field where another was put. -/
theorem extract_putField_apart {n k lo lo' : Nat} (v : BitVec n) (h : lo + n ≤ lo' ∨ lo' + k ≤ lo) :
    (putField lo v).extractLsb' lo' k = 0#k := by
  ext i hi
  simp only [putField, BitVec.getElem_extractLsb', BitVec.getLsbD_shiftLeft, BitVec.getLsbD_setWidth, BitVec.getElem_zero]
  by_cases h1 : lo' + i < lo
  · simp [h1]
  · have : v.getLsbD (lo' + i - lo) = false := BitVec.getLsbD_of_ge v _ (by omega)
    simp [this]

theorem extract_or {w : Nat} (x y : BitVec w) (s k : Nat) :
    (x ||| y).extractLsb' s k = x.extractLsb' s k ||| y.extractLsb' s k := by
  ext i hi
  simp

/-! ## The fields of an encoded word, under any encoding whose fields are sound -/

/-- The inequalities of a sound encoding, ready for `omega`. -/
theorem FieldPositions.Sound.flat {f : FieldPositions} (h : f.Sound) :
    (f.op + 5 ≤ 32 ∧ f.ra + 5 ≤ 32 ∧ f.rb + 5 ≤ 32 ∧ f.rc + 5 ≤ 32 ∧ f.c1 + 22 ≤ 32 ∧ f.c2 + 17 ≤ 32 ∧ f.c3 + 12 ≤ 32) ∧
    (f.op + 5 ≤ f.ra ∨ f.ra + 5 ≤ f.op) ∧ (f.op + 5 ≤ f.rb ∨ f.rb + 5 ≤ f.op) ∧ (f.op + 5 ≤ f.rc ∨ f.rc + 5 ≤ f.op) ∧
    (f.op + 5 ≤ f.c1 ∨ f.c1 + 22 ≤ f.op) ∧ (f.op + 5 ≤ f.c2 ∨ f.c2 + 17 ≤ f.op) ∧ (f.op + 5 ≤ f.c3 ∨ f.c3 + 12 ≤ f.op) ∧
    (f.ra + 5 ≤ f.rb ∨ f.rb + 5 ≤ f.ra) ∧ (f.ra + 5 ≤ f.c2 ∨ f.c2 + 17 ≤ f.ra) ∧ (f.rb + 5 ≤ f.c2 ∨ f.c2 + 17 ≤ f.rb) ∧
    (f.ra + 5 ≤ f.c1 ∨ f.c1 + 22 ≤ f.ra) ∧
    (f.ra + 5 ≤ f.rc ∨ f.rc + 5 ≤ f.ra) ∧ (f.ra + 5 ≤ f.c3 ∨ f.c3 + 12 ≤ f.ra) ∧ (f.rb + 5 ≤ f.rc ∨ f.rc + 5 ≤ f.rb) ∧
    (f.rb + 5 ≤ f.c3 ∨ f.c3 + 12 ≤ f.rb) ∧ (f.rc + 5 ≤ f.c3 ∨ f.c3 + 12 ≤ f.rc) :=
  ⟨h.inWord, h.opApart.1, h.opApart.2.1, h.opApart.2.2.1, h.opApart.2.2.2.1, h.opApart.2.2.2.2.1, h.opApart.2.2.2.2.2,
    h.format1.1, h.format1.2.1, h.format1.2.2, h.format2, h.format3.1, h.format3.2.1, h.format3.2.2.1, h.format3.2.2.2.1,
    h.format3.2.2.2.2⟩

section
variable {c : Config} (h : c.fields.Sound)
include h

/-! ### format1 -/

theorem fieldOp_format1 (ra rb : Reg) (c2 : BitVec 17) : c.fieldOp (c.format1 ra rb c2) = 0#5 := by
  have hf := h.flat
  simp (disch := omega) [Config.fieldOp, Config.format1, extract_or, extract_putField_apart]
theorem fieldRa_format1 (op : BitVec 5) (ra rb : Reg) (c2 : BitVec 17) : c.fieldRa (c.word op (c.format1 ra rb c2)) = ra := by
  have hf := h.flat
  simp (disch := omega) [Config.fieldRa, Config.word, Config.format1, extract_or, extract_putField, extract_putField_apart]
theorem fieldRb_format1 (op : BitVec 5) (ra rb : Reg) (c2 : BitVec 17) : c.fieldRb (c.word op (c.format1 ra rb c2)) = rb := by
  have hf := h.flat
  simp (disch := omega) [Config.fieldRb, Config.word, Config.format1, extract_or, extract_putField, extract_putField_apart]
theorem fieldC2_format1 (op : BitVec 5) (ra rb : Reg) (c2 : BitVec 17) : c.fieldC2 (c.word op (c.format1 ra rb c2)) = c2 := by
  have hf := h.flat
  simp (disch := omega) [Config.fieldC2, Config.word, Config.format1, extract_or, extract_putField, extract_putField_apart]

/-! ### format2 -/

theorem fieldOp_format2 (ra : Reg) (c1 : BitVec 22) : c.fieldOp (c.format2 ra c1) = 0#5 := by
  have hf := h.flat
  simp (disch := omega) [Config.fieldOp, Config.format2, extract_or, extract_putField_apart]
theorem fieldRa_format2 (op : BitVec 5) (ra : Reg) (c1 : BitVec 22) : c.fieldRa (c.word op (c.format2 ra c1)) = ra := by
  have hf := h.flat
  simp (disch := omega) [Config.fieldRa, Config.word, Config.format2, extract_or, extract_putField, extract_putField_apart]
theorem fieldC1_format2 (op : BitVec 5) (ra : Reg) (c1 : BitVec 22) : c.fieldC1 (c.word op (c.format2 ra c1)) = c1 := by
  have hf := h.flat
  simp (disch := omega) [Config.fieldC1, Config.word, Config.format2, extract_or, extract_putField, extract_putField_apart]

/-! ### format3 -/

theorem fieldOp_format3 (ra rb rc : Reg) (c3 : BitVec 12) : c.fieldOp (c.format3 ra rb rc c3) = 0#5 := by
  have hf := h.flat
  simp (disch := omega) [Config.fieldOp, Config.format3, extract_or, extract_putField_apart]
theorem fieldRa_format3 (op : BitVec 5) (ra rb rc : Reg) (c3 : BitVec 12) : c.fieldRa (c.word op (c.format3 ra rb rc c3)) = ra := by
  have hf := h.flat
  simp (disch := omega) [Config.fieldRa, Config.word, Config.format3, extract_or, extract_putField, extract_putField_apart]
theorem fieldRb_format3 (op : BitVec 5) (ra rb rc : Reg) (c3 : BitVec 12) : c.fieldRb (c.word op (c.format3 ra rb rc c3)) = rb := by
  have hf := h.flat
  simp (disch := omega) [Config.fieldRb, Config.word, Config.format3, extract_or, extract_putField, extract_putField_apart]
theorem fieldRc_format3 (op : BitVec 5) (ra rb rc : Reg) (c3 : BitVec 12) : c.fieldRc (c.word op (c.format3 ra rb rc c3)) = rc := by
  have hf := h.flat
  simp (disch := omega) [Config.fieldRc, Config.word, Config.format3, extract_or, extract_putField, extract_putField_apart]
theorem fieldCount_format3 (op : BitVec 5) (ra rb rc : Reg) (c3 : BitVec 12) : c.fieldCount (c.word op (c.format3 ra rb rc c3)) = c3.extractLsb' 0 5 := by
  have hf := h.flat
  simp (disch := omega) [Config.fieldCount, Config.word, Config.format3, extract_or, extract_putField, extract_putField_apart]
theorem fieldCond_format3 (op : BitVec 5) (ra rb rc : Reg) (c3 : BitVec 12) : c.fieldCond (c.word op (c.format3 ra rb rc c3)) = c3.extractLsb' 0 3 := by
  have hf := h.flat
  simp (disch := omega) [Config.fieldCond, Config.word, Config.format3, extract_or, extract_putField, extract_putField_apart]

/-! ### The operation code -/

theorem fieldOp_operands (i : Instr) : c.fieldOp (c.operands i) = 0#5 := by
  cases i <;>
    simp [Config.operands, Config.formatBranch, Config.formatCount, fieldOp_format1 h, fieldOp_format2 h, fieldOp_format3 h] <;>
    simp [Config.fieldOp]

theorem fieldOp_word (op : BitVec 5) (rest : Word) (hr : c.fieldOp rest = 0#5) : c.fieldOp (c.word op rest) = op := by
  have hf := h.flat
  simp only [Config.fieldOp] at hr
  simp (disch := omega) [Config.fieldOp, Config.word, extract_or, hr, extract_putField]

/-- The operation code of an encoded instruction. -/
theorem Config.fieldOp_encode (i : Instr) : c.fieldOp (c.encode i) = c.opcode i :=
  fieldOp_word h _ _ (fieldOp_operands h i)

end

/-! ## The default encoding -/

/-- The default fields lie in the word and share no bit. -/
theorem config_fields_sound : config.fields.Sound := by
  constructor <;> simp [config, defaultFields, Apart]

/-- The default tables give every operation and condition a code of its own. -/
theorem config_sound : config.SoundEncoding where
  fields := config_fields_sound
  operations o := by cases o <;> rfl
  conditions k := by cases k <;> rfl
  unused := by decide
  reserved := rfl

theorem fieldOp_encode (i : Instr) : fieldOp (encode i) = opcode i := Config.fieldOp_encode config_fields_sound i

/-! ## The default operation-code map, written out (R74, R75, R160) -/

theorem fieldOp_eq (w : Word) : fieldOp w = w.extractLsb' 27 5 := rfl
theorem fieldRa_eq (w : Word) : fieldRa w = (w.extractLsb' 22 5).toFin := rfl
theorem fieldRb_eq (w : Word) : fieldRb w = (w.extractLsb' 17 5).toFin := rfl
theorem fieldRc_eq (w : Word) : fieldRc w = (w.extractLsb' 12 5).toFin := rfl
theorem fieldC1_eq (w : Word) : fieldC1 w = w.extractLsb' 0 22 := rfl
theorem fieldC2_eq (w : Word) : fieldC2 w = w.extractLsb' 0 17 := rfl
theorem fieldCount_eq (w : Word) : fieldCount w = w.extractLsb' 0 5 := rfl
theorem fieldCond_eq (w : Word) : fieldCond w = w.extractLsb' 0 3 := rfl

/-- What a word decodes to when its operation code is known: the row of that code. -/
theorem decodeWord_of {w : Word} {op : BitVec 5} (h : fieldOp w = op) :
    decodeWord w = match config.operation op with
      | some .nop => .nop
      | some .ld => config.decodeBase w .ldAbs .ldDisp
      | some .ldr => config.decodeRel w .ldr
      | some .st => config.decodeBase w .stAbs .stDisp
      | some .str => config.decodeRel w .str
      | some .la => config.decodeBase w .laAbs .laDisp
      | some .lar => config.decodeRel w .lar
      | some .br => config.decodeBr w
      | some .brl => config.decodeBrl w
      | some .een => .een
      | some .edi => .edi
      | some .add => config.decodeThree w .add
      | some .addi => config.decodeImm w .addi
      | some .sub => config.decodeThree w .sub
      | some .neg => .neg (fieldRa w) (fieldRc w)
      | some .svi => .svi (fieldRa w) (fieldRb w)
      | some .ri => .ri (fieldRa w) (fieldRb w)
      | some .and => config.decodeThree w .and
      | some .andi => config.decodeImm w .andi
      | some .or => config.decodeThree w .or
      | some .ori => config.decodeImm w .ori
      | some .not => .not (fieldRa w) (fieldRc w)
      | some .shr => config.decodeShift w .shrReg .shrConst
      | some .shra => config.decodeShift w .shraReg .shraConst
      | some .shl => config.decodeShift w .shlReg .shlConst
      | some .shc => config.decodeShift w .shcReg .shcConst
      | some .rfi => .rfi
      | some .stop => .stop
      | none => unusedRow op := by
  subst h; rfl

/-- The operation code of every instruction, as a number (R74, R76). -/
theorem opcode_eq (i : Instr) :
    opcode i = match i with
      | .nop => 0#5
      | .ldAbs .. | .ldDisp .. => 1#5
      | .ldr .. => 2#5
      | .stAbs .. | .stDisp .. => 3#5
      | .str .. => 4#5
      | .laAbs .. | .laDisp .. => 5#5
      | .lar .. => 6#5
      | .unusedOp7 => 7#5
      | .brnv | .br .. | .brzr .. | .brnz .. | .brpl .. | .brmi .. | .brReservedCond => 8#5
      | .brlnv .. | .brl .. | .brlzr .. | .brlnz .. | .brlpl .. | .brlmi .. | .brlReservedCond => 9#5
      | .een => 10#5
      | .edi => 11#5
      | .add .. => 12#5
      | .addi .. => 13#5
      | .sub .. => 14#5
      | .neg .. => 15#5
      | .svi .. => 16#5
      | .ri .. => 17#5
      | .unusedOp18 => 18#5
      | .unusedOp19 => 19#5
      | .and .. => 20#5
      | .andi .. => 21#5
      | .or .. => 22#5
      | .ori .. => 23#5
      | .not .. => 24#5
      | .unusedOp25 => 25#5
      | .shrReg .. | .shrConst .. => 26#5
      | .shraReg .. | .shraConst .. => 27#5
      | .shlReg .. | .shlConst .. => 28#5
      | .shcReg .. | .shcConst .. => 29#5
      | .rfi => 30#5
      | .stop => 31#5 := by
  cases i <;> rfl

/-- What the condition field of a `br` word selects. -/
theorem decodeBr_of {w : Word} {k : BitVec 3} (h : fieldCond w = k) :
    config.decodeBr w = match config.condition k with
      | some .never => .brnv
      | some .always => .br (fieldRb w)
      | some .zero => .brzr (fieldRb w) (fieldRc w)
      | some .nonzero => .brnz (fieldRb w) (fieldRc w)
      | some .plus => .brpl (fieldRb w) (fieldRc w)
      | some .minus => .brmi (fieldRb w) (fieldRc w)
      | none => .brReservedCond := by
  subst h; rfl

/-- What the condition field of a `brl` word selects. -/
theorem decodeBrl_of {w : Word} {k : BitVec 3} (h : fieldCond w = k) :
    config.decodeBrl w = match config.condition k with
      | some .never => .brlnv (fieldRa w)
      | some .always => .brl (fieldRa w) (fieldRb w)
      | some .zero => .brlzr (fieldRa w) (fieldRb w) (fieldRc w)
      | some .nonzero => .brlnz (fieldRa w) (fieldRb w) (fieldRc w)
      | some .plus => .brlpl (fieldRa w) (fieldRb w) (fieldRc w)
      | some .minus => .brlmi (fieldRa w) (fieldRb w) (fieldRc w)
      | none => .brlReservedCond := by
  subst h; rfl

/-- The count of a constant shift's word. -/
theorem count_low (n : BitVec 5) : (0#7 ++ n).extractLsb' 0 5 = n := (extract_append_low _ _ (by omega)).trans (extract_all n)

/-- The condition of a branch's word. -/
theorem cond_low (k : BitVec 3) : (0#9 ++ k).extractLsb' 0 3 = k := (extract_append_low _ _ (by omega)).trans (extract_all k)

/-! ## Bytes and words -/

/-- The bytes of a word, most significant first, joined again, are the word. -/
theorem join_bytes (w : Word) : w.extractLsb' 24 8 ++ w.extractLsb' 16 8 ++ w.extractLsb' 8 8 ++ w.extractLsb' 0 8 = w := by
  ext i hi
  simp only [BitVec.getElem_append, BitVec.getElem_extractLsb']
  by_cases h0 : i < 8
  · simp [h0, BitVec.getLsbD_eq_getElem hi]
  · by_cases h1 : i - 8 < 8
    · simp [h0, h1, show 8 + (i - 8) = i by omega, BitVec.getLsbD_eq_getElem hi]
    · by_cases h2 : i - 8 - 8 < 8
      · simp [h0, h1, h2, show 16 + (i - 8 - 8) = i by omega, BitVec.getLsbD_eq_getElem hi]
      · simp [h0, h1, h2, show 24 + (i - 8 - 8 - 8) = i by omega, BitVec.getLsbD_eq_getElem hi]

/-- A word laid out in either order is read back by it. -/
theorem decodeBytes_bytesOfWord (c : Config) (w : Word) (rest : List Byte) :
    c.decodeBytes (bytesOfWord c.byteOrder w ++ rest) = .ok (c.decode w, rest) := by
  have hw := join_bytes w
  cases ho : c.byteOrder <;>
    simp only [bytesOfWord, ByteOrder.arrange, List.reverse_cons, List.reverse_nil, List.nil_append, List.cons_append,
      Config.decodeBytes, ho, wordOfBytes] <;> rw [hw]

end Sys2Proof
end

