-- ==== Sys2Proof/Laws/State.lean ====
section
/-! SUPPORT. What each update of State leaves of each field: one lemma per field per update, so that no later proof unfolds a record
update. -/

namespace Sys2Proof.Machine

/-! ## The named updates -/

/-- Reading a register after writing one. -/
theorem State.reg_setReg (s : State) (i j : Reg) (v : Word) :
    (s.setReg i v).reg j = if i = j then v else s.reg j := by
  simp [State.setReg, State.reg, Vector.getElem_set, Fin.ext_iff]

@[simp] theorem State.reg_setReg_same (s : State) (i : Reg) (v : Word) : (s.setReg i v).reg i = v := by
  simp [State.reg_setReg]

@[simp] theorem State.reg_setReg_ne (s : State) {i j : Reg} (v : Word) (h : i ≠ j) :
    (s.setReg i v).reg j = s.reg j := by
  simp [State.reg_setReg, h]

@[simp] theorem State.pc_setReg (s : State) (i : Reg) (v : Word) : (s.setReg i v).pc = s.pc := rfl
@[simp] theorem State.run_setReg (s : State) (i : Reg) (v : Word) : (s.setReg i v).run = s.run := rfl
@[simp] theorem State.ie_setReg (s : State) (i : Reg) (v : Word) : (s.setReg i v).ie = s.ie := rfl
@[simp] theorem State.ipc_setReg (s : State) (i : Reg) (v : Word) : (s.setReg i v).ipc = s.ipc := rfl
@[simp] theorem State.ii_setReg (s : State) (i : Reg) (v : Word) : (s.setReg i v).ii = s.ii := rfl
@[simp] theorem State.mem_setReg (s : State) (i : Reg) (v : Word) : (s.setReg i v).mem = s.mem := rfl
@[simp] theorem State.irq_setReg (s : State) (i : Reg) (v : Word) : (s.setReg i v).irq = s.irq := rfl
@[simp] theorem State.iack_setReg (s : State) (i : Reg) (v : Word) : (s.setReg i v).iack = s.iack := rfl
@[simp] theorem State.draws_setReg (s : State) (i : Reg) (v : Word) : (s.setReg i v).draws = s.draws := rfl

@[simp] theorem State.reg_setPc (s : State) (v : Word) (j : Reg) : (s.setPc v).reg j = s.reg j := rfl
@[simp] theorem State.pc_setPc (s : State) (v : Word) : (s.setPc v).pc = v := rfl
@[simp] theorem State.run_setPc (s : State) (v : Word) : (s.setPc v).run = s.run := rfl
@[simp] theorem State.ie_setPc (s : State) (v : Word) : (s.setPc v).ie = s.ie := rfl
@[simp] theorem State.ipc_setPc (s : State) (v : Word) : (s.setPc v).ipc = s.ipc := rfl
@[simp] theorem State.ii_setPc (s : State) (v : Word) : (s.setPc v).ii = s.ii := rfl
@[simp] theorem State.mem_setPc (s : State) (v : Word) : (s.setPc v).mem = s.mem := rfl
@[simp] theorem State.irq_setPc (s : State) (v : Word) : (s.setPc v).irq = s.irq := rfl
@[simp] theorem State.iack_setPc (s : State) (v : Word) : (s.setPc v).iack = s.iack := rfl
@[simp] theorem State.draws_setPc (s : State) (v : Word) : (s.setPc v).draws = s.draws := rfl

@[simp] theorem State.reg_setRun (s : State) (b : Bool) (j : Reg) : (s.setRun b).reg j = s.reg j := rfl
@[simp] theorem State.pc_setRun (s : State) (b : Bool) : (s.setRun b).pc = s.pc := rfl
@[simp] theorem State.run_setRun (s : State) (b : Bool) : (s.setRun b).run = b := rfl
@[simp] theorem State.ie_setRun (s : State) (b : Bool) : (s.setRun b).ie = s.ie := rfl
@[simp] theorem State.ipc_setRun (s : State) (b : Bool) : (s.setRun b).ipc = s.ipc := rfl
@[simp] theorem State.ii_setRun (s : State) (b : Bool) : (s.setRun b).ii = s.ii := rfl
@[simp] theorem State.mem_setRun (s : State) (b : Bool) : (s.setRun b).mem = s.mem := rfl
@[simp] theorem State.irq_setRun (s : State) (b : Bool) : (s.setRun b).irq = s.irq := rfl
@[simp] theorem State.iack_setRun (s : State) (b : Bool) : (s.setRun b).iack = s.iack := rfl
@[simp] theorem State.draws_setRun (s : State) (b : Bool) : (s.setRun b).draws = s.draws := rfl

@[simp] theorem State.reg_setIe (s : State) (b : Bool) (j : Reg) : (s.setIe b).reg j = s.reg j := rfl
@[simp] theorem State.pc_setIe (s : State) (b : Bool) : (s.setIe b).pc = s.pc := rfl
@[simp] theorem State.run_setIe (s : State) (b : Bool) : (s.setIe b).run = s.run := rfl
@[simp] theorem State.ie_setIe (s : State) (b : Bool) : (s.setIe b).ie = b := rfl
@[simp] theorem State.ipc_setIe (s : State) (b : Bool) : (s.setIe b).ipc = s.ipc := rfl
@[simp] theorem State.ii_setIe (s : State) (b : Bool) : (s.setIe b).ii = s.ii := rfl
@[simp] theorem State.mem_setIe (s : State) (b : Bool) : (s.setIe b).mem = s.mem := rfl
@[simp] theorem State.irq_setIe (s : State) (b : Bool) : (s.setIe b).irq = s.irq := rfl
@[simp] theorem State.iack_setIe (s : State) (b : Bool) : (s.setIe b).iack = s.iack := rfl
@[simp] theorem State.draws_setIe (s : State) (b : Bool) : (s.setIe b).draws = s.draws := rfl

@[simp] theorem State.reg_setIpc (s : State) (v : Word) (j : Reg) : (s.setIpc v).reg j = s.reg j := rfl
@[simp] theorem State.pc_setIpc (s : State) (v : Word) : (s.setIpc v).pc = s.pc := rfl
@[simp] theorem State.run_setIpc (s : State) (v : Word) : (s.setIpc v).run = s.run := rfl
@[simp] theorem State.ie_setIpc (s : State) (v : Word) : (s.setIpc v).ie = s.ie := rfl
@[simp] theorem State.ipc_setIpc (s : State) (v : Word) : (s.setIpc v).ipc = v := rfl
@[simp] theorem State.ii_setIpc (s : State) (v : Word) : (s.setIpc v).ii = s.ii := rfl
@[simp] theorem State.mem_setIpc (s : State) (v : Word) : (s.setIpc v).mem = s.mem := rfl
@[simp] theorem State.irq_setIpc (s : State) (v : Word) : (s.setIpc v).irq = s.irq := rfl
@[simp] theorem State.iack_setIpc (s : State) (v : Word) : (s.setIpc v).iack = s.iack := rfl
@[simp] theorem State.draws_setIpc (s : State) (v : Word) : (s.setIpc v).draws = s.draws := rfl

@[simp] theorem State.reg_setIi (s : State) (v : Half) (j : Reg) : (s.setIi v).reg j = s.reg j := rfl
@[simp] theorem State.pc_setIi (s : State) (v : Half) : (s.setIi v).pc = s.pc := rfl
@[simp] theorem State.run_setIi (s : State) (v : Half) : (s.setIi v).run = s.run := rfl
@[simp] theorem State.ie_setIi (s : State) (v : Half) : (s.setIi v).ie = s.ie := rfl
@[simp] theorem State.ipc_setIi (s : State) (v : Half) : (s.setIi v).ipc = s.ipc := rfl
@[simp] theorem State.ii_setIi (s : State) (v : Half) : (s.setIi v).ii = v := rfl
@[simp] theorem State.mem_setIi (s : State) (v : Half) : (s.setIi v).mem = s.mem := rfl
@[simp] theorem State.irq_setIi (s : State) (v : Half) : (s.setIi v).irq = s.irq := rfl
@[simp] theorem State.iack_setIi (s : State) (v : Half) : (s.setIi v).iack = s.iack := rfl
@[simp] theorem State.draws_setIi (s : State) (v : Half) : (s.setIi v).draws = s.draws := rfl

@[simp] theorem State.reg_setMem (s : State) (m : Memory) (j : Reg) : (s.setMem m).reg j = s.reg j := rfl
@[simp] theorem State.pc_setMem (s : State) (m : Memory) : (s.setMem m).pc = s.pc := rfl
@[simp] theorem State.run_setMem (s : State) (m : Memory) : (s.setMem m).run = s.run := rfl
@[simp] theorem State.ie_setMem (s : State) (m : Memory) : (s.setMem m).ie = s.ie := rfl
@[simp] theorem State.ipc_setMem (s : State) (m : Memory) : (s.setMem m).ipc = s.ipc := rfl
@[simp] theorem State.ii_setMem (s : State) (m : Memory) : (s.setMem m).ii = s.ii := rfl
@[simp] theorem State.mem_setMem (s : State) (m : Memory) : (s.setMem m).mem = m := rfl
@[simp] theorem State.irq_setMem (s : State) (m : Memory) : (s.setMem m).irq = s.irq := rfl
@[simp] theorem State.iack_setMem (s : State) (m : Memory) : (s.setMem m).iack = s.iack := rfl
@[simp] theorem State.draws_setMem (s : State) (m : Memory) : (s.setMem m).draws = s.draws := rfl

@[simp] theorem State.reg_countDraw (s : State) (j : Reg) : (s.countDraw).reg j = s.reg j := rfl
@[simp] theorem State.pc_countDraw (s : State) : (s.countDraw).pc = s.pc := rfl
@[simp] theorem State.run_countDraw (s : State) : (s.countDraw).run = s.run := rfl
@[simp] theorem State.ie_countDraw (s : State) : (s.countDraw).ie = s.ie := rfl
@[simp] theorem State.ipc_countDraw (s : State) : (s.countDraw).ipc = s.ipc := rfl
@[simp] theorem State.ii_countDraw (s : State) : (s.countDraw).ii = s.ii := rfl
@[simp] theorem State.mem_countDraw (s : State) : (s.countDraw).mem = s.mem := rfl
@[simp] theorem State.irq_countDraw (s : State) : (s.countDraw).irq = s.irq := rfl
@[simp] theorem State.iack_countDraw (s : State) : (s.countDraw).iack = s.iack := rfl
@[simp] theorem State.draws_countDraw (s : State) : (s.countDraw).draws = s.draws + 1 := rfl

@[simp] theorem State.reg_passBoundary (s : State) (j : Reg) : (s.passBoundary).reg j = s.reg j := rfl
@[simp] theorem State.pc_passBoundary (s : State) : (s.passBoundary).pc = s.pc := rfl
@[simp] theorem State.run_passBoundary (s : State) : (s.passBoundary).run = s.run := rfl
@[simp] theorem State.ie_passBoundary (s : State) : (s.passBoundary).ie = s.ie := rfl
@[simp] theorem State.ipc_passBoundary (s : State) : (s.passBoundary).ipc = s.ipc := rfl
@[simp] theorem State.ii_passBoundary (s : State) : (s.passBoundary).ii = s.ii := rfl
@[simp] theorem State.mem_passBoundary (s : State) : (s.passBoundary).mem = s.mem := rfl
@[simp] theorem State.irq_passBoundary (s : State) : (s.passBoundary).irq = s.irq.tail := rfl
@[simp] theorem State.iack_passBoundary (s : State) : (s.passBoundary).iack = false := rfl
@[simp] theorem State.draws_passBoundary (s : State) : (s.passBoundary).draws = s.draws := rfl

@[simp] theorem State.reg_advancePc (s : State) (j : Reg) : (s.advancePc).reg j = s.reg j := rfl
@[simp] theorem State.pc_advancePc (s : State) : (s.advancePc).pc = s.pc + 4 := rfl
@[simp] theorem State.run_advancePc (s : State) : (s.advancePc).run = s.run := rfl
@[simp] theorem State.ie_advancePc (s : State) : (s.advancePc).ie = s.ie := rfl
@[simp] theorem State.ipc_advancePc (s : State) : (s.advancePc).ipc = s.ipc := rfl
@[simp] theorem State.ii_advancePc (s : State) : (s.advancePc).ii = s.ii := rfl
@[simp] theorem State.mem_advancePc (s : State) : (s.advancePc).mem = s.mem := rfl
@[simp] theorem State.irq_advancePc (s : State) : (s.advancePc).irq = s.irq := rfl
@[simp] theorem State.iack_advancePc (s : State) : (s.advancePc).iack = s.iack := rfl
@[simp] theorem State.draws_advancePc (s : State) : (s.advancePc).draws = s.draws := rfl

/-! ## Interrupt entry and return -/

@[simp] theorem State.reg_interruptEntry (s : State) (q : IrqRequest) (j : Reg) : (interruptEntry q s).reg j = s.reg j := rfl
@[simp] theorem State.pc_interruptEntry (s : State) (q : IrqRequest) : (interruptEntry q s).pc = entryAddress q.vect := rfl
@[simp] theorem State.run_interruptEntry (s : State) (q : IrqRequest) : (interruptEntry q s).run = s.run := rfl
@[simp] theorem State.ie_interruptEntry (s : State) (q : IrqRequest) : (interruptEntry q s).ie = false := rfl
@[simp] theorem State.ipc_interruptEntry (s : State) (q : IrqRequest) : (interruptEntry q s).ipc = s.pc := rfl
@[simp] theorem State.ii_interruptEntry (s : State) (q : IrqRequest) : (interruptEntry q s).ii = q.info := rfl
@[simp] theorem State.mem_interruptEntry (s : State) (q : IrqRequest) : (interruptEntry q s).mem = s.mem := rfl
@[simp] theorem State.irq_interruptEntry (s : State) (q : IrqRequest) : (interruptEntry q s).irq = s.irq := rfl
@[simp] theorem State.iack_interruptEntry (s : State) (q : IrqRequest) : (interruptEntry q s).iack = true := rfl
@[simp] theorem State.draws_interruptEntry (s : State) (q : IrqRequest) : (interruptEntry q s).draws = s.draws := rfl

@[simp] theorem State.reg_interruptReturn (s : State) (j : Reg) : (interruptReturn s).reg j = s.reg j := rfl
@[simp] theorem State.pc_interruptReturn (s : State) : (interruptReturn s).pc = s.ipc := rfl
@[simp] theorem State.run_interruptReturn (s : State) : (interruptReturn s).run = s.run := rfl
@[simp] theorem State.ie_interruptReturn (s : State) : (interruptReturn s).ie = true := rfl
@[simp] theorem State.ipc_interruptReturn (s : State) : (interruptReturn s).ipc = s.ipc := rfl
@[simp] theorem State.ii_interruptReturn (s : State) : (interruptReturn s).ii = s.ii := rfl
@[simp] theorem State.mem_interruptReturn (s : State) : (interruptReturn s).mem = s.mem := rfl
@[simp] theorem State.irq_interruptReturn (s : State) : (interruptReturn s).irq = s.irq := rfl
@[simp] theorem State.iack_interruptReturn (s : State) : (interruptReturn s).iack = s.iack := rfl
@[simp] theorem State.draws_interruptReturn (s : State) : (interruptReturn s).draws = s.draws := rfl

/-! ## Bytes of memory under the updates that leave memory alone -/

@[simp] theorem State.byte_setReg (s : State) (i : Reg) (v : Word) (a : Word) : (s.setReg i v).byte a = s.byte a := rfl
@[simp] theorem State.byte_setPc (s : State) (v : Word) (a : Word) : (s.setPc v).byte a = s.byte a := rfl
@[simp] theorem State.byte_setRun (s : State) (b : Bool) (a : Word) : (s.setRun b).byte a = s.byte a := rfl
@[simp] theorem State.byte_setIe (s : State) (b : Bool) (a : Word) : (s.setIe b).byte a = s.byte a := rfl
@[simp] theorem State.byte_setIpc (s : State) (v : Word) (a : Word) : (s.setIpc v).byte a = s.byte a := rfl
@[simp] theorem State.byte_setIi (s : State) (v : Half) (a : Word) : (s.setIi v).byte a = s.byte a := rfl
@[simp] theorem State.byte_setMem (s : State) (m : Memory) (a : Word) : (s.setMem m).byte a = m.read a.toNat := rfl
@[simp] theorem State.byte_countDraw (s : State) (a : Word) : s.countDraw.byte a = s.byte a := rfl
@[simp] theorem State.byte_passBoundary (s : State) (a : Word) : s.passBoundary.byte a = s.byte a := rfl
@[simp] theorem State.byte_advancePc (s : State) (a : Word) : s.advancePc.byte a = s.byte a := rfl
@[simp] theorem State.byte_interruptEntry (s : State) (q : IrqRequest) (a : Word) : (interruptEntry q s).byte a = s.byte a := rfl
@[simp] theorem State.byte_interruptReturn (s : State) (a : Word) : (interruptReturn s).byte a = s.byte a := rfl

/-! ## Reset -/

@[simp] theorem State.reg_reset (i : Reg) : State.reset.reg i = 0 := by
  simp [State.reset, State.reg, config]

@[simp] theorem State.mem_reset : State.reset.mem = [] := rfl

end Sys2Proof.Machine
end

