-- ==== Sys2Proof/Laws/Memory.lean ====
section
/-! SUPPORT. The laws of memory: a read after a write, and that every memory operation keeps the canonical form. -/

namespace Sys2Proof.Machine

/-! ## Reading after writing (any list, canonical or not) -/

/-- What is written after writing one byte. -/
theorem Memory.written_write (m : Memory) (a b : Nat) (v : Byte) :
    (m.write a v).written b = if a = b then some v else m.written b := by
  induction m with
  | nil => simp [Memory.write, Memory.written]
  | cons c rest ih =>
    obtain ⟨x, w⟩ := c
    by_cases hlt : a < x
    · simp [Memory.write, hlt, Memory.written]
    · by_cases hx : a = x
      · subst hx
        by_cases hb : a = b <;> simp [Memory.write, Memory.written, hb]
      · by_cases hb : x = b
        · subst hb; simp [Memory.write, hlt, hx, Memory.written]
        · simp [Memory.write, hlt, hx, Memory.written, hb, ih]

/-- Reading a byte after writing one. -/
theorem Memory.read_write (m : Memory) (a b : Nat) (v : Byte) :
    (m.write a v).read b = if a = b then v else m.read b := by
  unfold Memory.read
  rw [Memory.written_write]
  by_cases hb : a = b <;> simp [hb]

@[simp] theorem Memory.read_write_same (m : Memory) (a : Nat) (v : Byte) : (m.write a v).read a = v := by
  simp [Memory.read_write]

@[simp] theorem Memory.read_write_ne (m : Memory) {a b : Nat} (v : Byte) (h : a ≠ b) :
    (m.write a v).read b = m.read b := by
  simp [Memory.read_write, h]

/-! ## The canonical form -/

theorem Memory.wfFrom_write {lo : Nat} {m : Memory} {a : Nat} {v : Byte} (hm : Memory.wfFrom lo m = true)
    (hlo : lo ≤ a) (ha : a < 2 ^ 32) : Memory.wfFrom lo (m.write a v) = true := by
  induction m generalizing lo with
  | nil => simpa [Memory.write, Memory.wfFrom, hlo] using ha
  | cons c rest ih =>
    obtain ⟨x, w⟩ := c
    simp only [Memory.wfFrom, Bool.and_eq_true, decide_eq_true_eq] at hm
    by_cases hlt : a < x
    · simp only [Memory.write, hlt, if_true, Memory.wfFrom, Bool.and_eq_true, decide_eq_true_eq]
      exact ⟨⟨hlo, ha⟩, ⟨by omega, hm.1.2⟩, hm.2⟩
    · by_cases hx : a = x
      · subst hx
        simp only [Memory.write, Nat.lt_irrefl, if_false, if_true, Memory.wfFrom, Bool.and_eq_true, decide_eq_true_eq]
        exact hm
      · simp only [Memory.write, hlt, hx, if_false, Memory.wfFrom, Bool.and_eq_true, decide_eq_true_eq]
        exact ⟨hm.1, ih hm.2 (by omega)⟩

/-- Storing a byte below 2^32 keeps the canonical form. -/
theorem Memory.wf_write {m : Memory} {a : Nat} {v : Byte} (hm : m.wf = true) (ha : a < 2 ^ 32) :
    (m.write a v).wf = true :=
  Memory.wfFrom_write hm (Nat.zero_le a) ha

/-- Storing bytes at addresses modulo 2^32 keeps the canonical form. -/
theorem writeBytes_wf {bs : List Byte} {m : Memory} {a : Word} (hm : m.wf = true) : (writeBytes m a bs).wf = true := by
  induction bs generalizing m a with
  | nil => exact hm
  | cons b rest ih => exact ih (Memory.wf_write hm a.isLt)

/-- Storing a word keeps the canonical form. -/
theorem writeWord_wf {o : ByteOrder} {m : Memory} {a v : Word} (hm : m.wf = true) : (writeWord o m a v).wf = true :=
  writeBytes_wf hm

/-- The loader keeps the canonical form when the image lies in the address space. -/
theorem Memory.wf_load {m : Memory} {img : Image} (hm : m.wf = true) (himg : ∀ c ∈ img, c.1 < 2 ^ 32) :
    (m.load img).wf = true := by
  induction img generalizing m with
  | nil => exact hm
  | cons c rest ih => exact ih (Memory.wf_write hm (himg c (by simp))) fun d hd => himg d (by simp [hd])

/-- Memory at reset is canonical. -/
theorem reset_mem_wf : State.reset.mem.wf = true := rfl

/-! ## Words -/

/-- The byte at `b` after storing a word at `a`, most significant byte first. -/
theorem read_writeWord_big (m : Memory) (a v b : Word) :
    (writeWord .bigEndian m a v).read b.toNat =
      if b = a + 3 then v.extractLsb' 0 8 else if b = a + 2 then v.extractLsb' 8 8
      else if b = a + 1 then v.extractLsb' 16 8 else if b = a then v.extractLsb' 24 8 else m.read b.toNat := by
  have h2 : a + 1 + 1 = a + 2 := by bv_omega
  have h3 : a + 2 + 1 = a + 3 := by bv_omega
  simp only [writeWord, bytesOfWord, ByteOrder.arrange, writeBytes, h2, h3, Memory.read_write, ← BitVec.toNat_eq, eq_comm (b := b)]

/-- The four addresses of a word are different, also where they wrap. -/
theorem word_addresses_ne (a : Word) :
    a ≠ a + 1 ∧ a ≠ a + 2 ∧ a ≠ a + 3 ∧ a + 1 ≠ a + 2 ∧ a + 1 ≠ a + 3 ∧ a + 2 ≠ a + 3 := by
  refine ⟨?_, ?_, ?_, ?_, ?_, ?_⟩ <;> bv_omega

/-- The four bytes of a word that was stored at `a`. -/
theorem read_writeWord_big_bytes (m : Memory) (a v : Word) :
    (writeWord .bigEndian m a v).read a.toNat = v.extractLsb' 24 8 ∧
    (writeWord .bigEndian m a v).read (a + 1).toNat = v.extractLsb' 16 8 ∧
    (writeWord .bigEndian m a v).read (a + 2).toNat = v.extractLsb' 8 8 ∧
    (writeWord .bigEndian m a v).read (a + 3).toNat = v.extractLsb' 0 8 := by
  obtain ⟨h1, h2, h3, h4, h5, h6⟩ := word_addresses_ne a
  simp only [read_writeWord_big]
  refine ⟨?_, ?_, ?_, if_true _ _⟩
  · rw [if_neg h3, if_neg h2, if_neg h1, if_true]
  · rw [if_neg h5, if_neg h4, if_true]
  · rw [if_neg h6, if_true]

/-- A byte outside the word that was stored at `a`. -/
theorem read_writeWord_big_outside (m : Memory) (a v b : Word) (h0 : b ≠ a) (h1 : b ≠ a + 1) (h2 : b ≠ a + 2)
    (h3 : b ≠ a + 3) : (writeWord .bigEndian m a v).read b.toNat = m.read b.toNat := by
  rw [read_writeWord_big, if_neg h3, if_neg h2, if_neg h1, if_neg h0]

/-- A word stored at `a` is read back. -/
theorem readWord_writeWord_big (m : Memory) (a v : Word) :
    readWord .bigEndian (writeWord .bigEndian m a v) a = v := by
  obtain ⟨h0, h1, h2, h3⟩ := read_writeWord_big_bytes m a v
  simp only [readWord, h0, h1, h2, h3, wordOfBytes]
  exact join_bytes v

end Sys2Proof.Machine
end

