-- ==== Sys2Proof/Laws/Access.lean ====
section
/-! SUPPORT. What the shared operations can do, said once: the access checks, loads and stores, the fetch. -/

namespace Sys2Proof.Machine

/-! ## Going on or stopping -/

@[simp] theorem andThen_next {α β : Type} (a : α) (f : α → Result β) : andThen (.next a) f = f a := rfl
@[simp] theorem andThen_fault {α β : Type} (e : Fault) (f : α → Result β) : andThen (.fault e) f = .fault e := rfl
@[simp] theorem andThen_refused {α β : Type} (e : Refusal) (f : α → Result β) : andThen (.refused e) f = .refused e := rfl

/-- A part that goes on after another went on. -/
theorem andThen_eq_next {α β : Type} {x : Result α} {f : α → Result β} {b : β} (h : andThen x f = .next b) :
    ∃ a, x = .next a ∧ f a = .next b := by
  cases x with
  | next a => exact ⟨a, rfl, h⟩
  | fault e => simp at h
  | refused e => simp at h

/-! ## Alignment -/

/-- A multiple of 4, in numbers. -/
theorem aligned_iff (a : Word) : aligned a = true ↔ a.toNat % 4 = 0 := by
  simp [aligned, ← BitVec.toNat_inj]

theorem not_aligned_iff (a : Word) : aligned a = false ↔ a.toNat % 4 ≠ 0 := by
  rw [← Bool.not_eq_true, aligned_iff]

/-! ## The access checks under the default configuration -/

/-- The default map has ordinary memory at every address, for both kinds of access. -/
theorem presence_default (a : Word) :
    presence (·.readable) config.memMap a = .memory ∧ presence (·.writable) config.memMap a = .memory := by
  have h : a.toNat < 4294967296 := a.isLt
  constructor <;> simp [presence, config, Config.allMemory, h]

/-- The checks of a read: only alignment is left. -/
theorem checkAccess_read (f : Word → State → Fault) (s : State) (a : Word) :
    checkAccess config (·.readable) f s a = if aligned a = true then .next () else .fault (f a s) := by
  unfold checkAccess
  rw [(presence_default a).1]
  cases h : aligned a <;> simp [config]

/-- The checks of a write. -/
theorem checkAccess_write (f : Word → State → Fault) (s : State) (a : Word) :
    checkAccess config (·.writable) f s a = if aligned a = true then .next () else .fault (f a s) := by
  unfold checkAccess
  rw [(presence_default a).2]
  cases h : aligned a <;> simp [config]

/-! ## The two primitives -/

theorem memRead_default (f : Word → State → Fault) (s : State) (a : Word) :
    memRead config f s a = if aligned a = true then .next (readWord .bigEndian s.mem a) else .fault (f a s) := by
  unfold memRead
  rw [checkAccess_read]
  split <;> rfl

theorem memWrite_default (s : State) (a v : Word) :
    memWrite config s a v =
      if aligned a = true then .next (s.setMem (writeWord .bigEndian s.mem a v)) else .fault (.misalignedData a s) := by
  unfold memWrite
  rw [checkAccess_write]
  split <;> rfl

theorem loadInto_default (ra : Reg) (a : Word) (s : State) :
    loadInto config ra a s =
      if aligned a = true then .next (s.setReg ra (readWord .bigEndian s.mem a)) else .fault (.misalignedData a s) := by
  unfold loadInto
  rw [memRead_default]
  split <;> rfl

theorem storeFrom_default (ra : Reg) (a : Word) (s : State) :
    storeFrom config ra a s =
      if aligned a = true then .next (s.setMem (writeWord .bigEndian s.mem a (s.reg ra))) else .fault (.misalignedData a s) :=
  memWrite_default s a (s.reg ra)

theorem fetch_default (s : State) :
    fetch config s =
      if aligned s.pc = true then .next (readWord .bigEndian s.mem s.pc) else .fault (.misalignedFetch s.pc s) :=
  memRead_default _ _ _

/-- What a fetch that succeeds needs and gives. -/
theorem fetch_eq_next {s : State} {w : Word} :
    fetch config s = .next w ↔ aligned s.pc = true ∧ readWord .bigEndian s.mem s.pc = w := by
  rw [fetch_default]
  split <;> simp_all

/-- A fetch that succeeds is the same on either side of the boundary. -/
theorem fetch_passBoundary {s : State} {w : Word} : fetch config s.passBoundary = .next w ↔ fetch config s = .next w := by
  rw [fetch_eq_next, fetch_eq_next]; rfl

/-! ## Branches -/

/-- What a branch can do: PC becomes R[rb], or nothing happens. -/
theorem branchIf_cases (k : Cond) (rb rc : Reg) (s : State) :
    (k.holds (s.reg rc) = true ∧ branchIf k rb rc s = s.setPc (s.reg rb)) ∨
    (k.holds (s.reg rc) = false ∧ branchIf k rb rc s = s) := by
  unfold branchIf
  cases h : k.holds (s.reg rc) <;> simp

@[simp] theorem branchIf_pc (k : Cond) (rb rc : Reg) (s : State) :
    (branchIf k rb rc s).pc = if k.holds (s.reg rc) = true then s.reg rb else s.pc := by
  unfold branchIf; split <;> simp_all
@[simp] theorem branchIf_reg (k : Cond) (rb rc i : Reg) (s : State) : (branchIf k rb rc s).reg i = s.reg i := by
  unfold branchIf; split <;> rfl
@[simp] theorem branchIf_run (k : Cond) (rb rc : Reg) (s : State) : (branchIf k rb rc s).run = s.run := by
  unfold branchIf; split <;> rfl
@[simp] theorem branchIf_ie (k : Cond) (rb rc : Reg) (s : State) : (branchIf k rb rc s).ie = s.ie := by
  unfold branchIf; split <;> rfl
@[simp] theorem branchIf_ipc (k : Cond) (rb rc : Reg) (s : State) : (branchIf k rb rc s).ipc = s.ipc := by
  unfold branchIf; split <;> rfl
@[simp] theorem branchIf_ii (k : Cond) (rb rc : Reg) (s : State) : (branchIf k rb rc s).ii = s.ii := by
  unfold branchIf; split <;> rfl
@[simp] theorem branchIf_mem (k : Cond) (rb rc : Reg) (s : State) : (branchIf k rb rc s).mem = s.mem := by
  unfold branchIf; split <;> rfl
@[simp] theorem branchIf_irq (k : Cond) (rb rc : Reg) (s : State) : (branchIf k rb rc s).irq = s.irq := by
  unfold branchIf; split <;> rfl
@[simp] theorem branchIf_iack (k : Cond) (rb rc : Reg) (s : State) : (branchIf k rb rc s).iack = s.iack := by
  unfold branchIf; split <;> rfl
@[simp] theorem branchIf_draws (k : Cond) (rb rc : Reg) (s : State) : (branchIf k rb rc s).draws = s.draws := by
  unfold branchIf; split <;> rfl

/-! ## The instructions, by what they can touch -/

/-- What any instruction that completes can do to memory: nothing, or store one register at an aligned address. -/
theorem exec_mem_cases {i : Instr} {s t : State} (h : exec i s = .next t) :
    t.mem = s.mem ∨ ∃ a ra, aligned a = true ∧ t = s.setMem (writeWord .bigEndian s.mem a (s.reg ra)) := by
  cases i <;>
    simp only [exec, execLdAbs, execLdDisp, execLdr, execStAbs, execStDisp, execStr, execLaAbs, execLaDisp, execLar, execAdd,
      execAddi, execSub, execNeg, execOr, execOri, execAnd, execAndi, execNot, execShrReg, execShrConst, execShraReg,
      execShraConst, execShlReg, execShlConst, execShcReg, execShcConst, execBrnv, execBr, execBrzr, execBrnz, execBrpl,
      execBrmi, execBrReservedCond, execBrlnv, execBrl, execBrlzr, execBrlnz, execBrlpl, execBrlmi, execBrlReservedCond,
      execNop, execStop, execEen, execEdi, execRfi, execSvi, execRi, execUnusedOp7, execUnusedOp18, execUnusedOp19,
      execUnusedOp25, loadInto_default, storeFrom_default] at h <;>
    first
    | (cases h; left; simp [branchLinkIf, restoreInterruptState])
    | (split at h <;> cases h; right; exact ⟨_, _, ‹_›, rfl⟩)
    | (split at h <;> cases h; left; simp [saveInterruptState])
    | cases h

/-- A fault of an instruction leaves the state the instruction was given. -/
theorem exec_fault_left {i : Instr} {s : State} {e : Fault} (h : exec i s = .fault e) : e.left = some s := by
  cases i <;>
    simp only [exec, execLdAbs, execLdDisp, execLdr, execStAbs, execStDisp, execStr, execLaAbs, execLaDisp, execLar, execAdd,
      execAddi, execSub, execNeg, execOr, execOri, execAnd, execAndi, execNot, execShrReg, execShrConst, execShraReg,
      execShraConst, execShlReg, execShlConst, execShcReg, execShcConst, execBrnv, execBr, execBrzr, execBrnz, execBrpl,
      execBrmi, execBrReservedCond, execBrlnv, execBrl, execBrlzr, execBrlnz, execBrlpl, execBrlmi, execBrlReservedCond,
      execNop, execStop, execEen, execEdi, execRfi, execSvi, execRi, execUnusedOp7, execUnusedOp18, execUnusedOp19,
      execUnusedOp25, loadInto_default, storeFrom_default] at h <;>
    (try split at h) <;> cases h <;> rfl

end Sys2Proof.Machine
end

