-- ==== Sys2Proof/Laws/PerInstr.lean ====
section
/-! SUPPORT. A statement made per instruction: the `op` field of its encoded word is its operation code (30_encoding.md R61, R74),
one lemma per constructor. -/

namespace Sys2Proof.Laws.EncodedOp

/-- The encoded word carries the instruction's operation code in bits 31..27. -/
def Statement (i : Instr) : Prop := fieldOp (encode i) = opcode i

theorem ldAbs (ra : Reg) (c2 : BitVec 17) : Statement (.ldAbs ra c2) := fieldOp_encode _
theorem ldDisp (ra rb : Reg) (c2 : BitVec 17) : Statement (.ldDisp ra rb c2) := fieldOp_encode _
theorem ldr (ra : Reg) (c1 : BitVec 22) : Statement (.ldr ra c1) := fieldOp_encode _
theorem stAbs (ra : Reg) (c2 : BitVec 17) : Statement (.stAbs ra c2) := fieldOp_encode _
theorem stDisp (ra rb : Reg) (c2 : BitVec 17) : Statement (.stDisp ra rb c2) := fieldOp_encode _
theorem str (ra : Reg) (c1 : BitVec 22) : Statement (.str ra c1) := fieldOp_encode _
theorem laAbs (ra : Reg) (c2 : BitVec 17) : Statement (.laAbs ra c2) := fieldOp_encode _
theorem laDisp (ra rb : Reg) (c2 : BitVec 17) : Statement (.laDisp ra rb c2) := fieldOp_encode _
theorem lar (ra : Reg) (c1 : BitVec 22) : Statement (.lar ra c1) := fieldOp_encode _
theorem add (ra rb rc : Reg) : Statement (.add ra rb rc) := fieldOp_encode _
theorem addi (ra rb : Reg) (c2 : BitVec 17) : Statement (.addi ra rb c2) := fieldOp_encode _
theorem sub (ra rb rc : Reg) : Statement (.sub ra rb rc) := fieldOp_encode _
theorem neg (ra rc : Reg) : Statement (.neg ra rc) := fieldOp_encode _
theorem or (ra rb rc : Reg) : Statement (.or ra rb rc) := fieldOp_encode _
theorem ori (ra rb : Reg) (c2 : BitVec 17) : Statement (.ori ra rb c2) := fieldOp_encode _
theorem and (ra rb rc : Reg) : Statement (.and ra rb rc) := fieldOp_encode _
theorem andi (ra rb : Reg) (c2 : BitVec 17) : Statement (.andi ra rb c2) := fieldOp_encode _
theorem not (ra rc : Reg) : Statement (.not ra rc) := fieldOp_encode _
theorem shrReg (ra rb rc : Reg) : Statement (.shrReg ra rb rc) := fieldOp_encode _
theorem shrConst (ra rb : Reg) (count : BitVec 5) : Statement (.shrConst ra rb count) := fieldOp_encode _
theorem shraReg (ra rb rc : Reg) : Statement (.shraReg ra rb rc) := fieldOp_encode _
theorem shraConst (ra rb : Reg) (count : BitVec 5) : Statement (.shraConst ra rb count) := fieldOp_encode _
theorem shlReg (ra rb rc : Reg) : Statement (.shlReg ra rb rc) := fieldOp_encode _
theorem shlConst (ra rb : Reg) (count : BitVec 5) : Statement (.shlConst ra rb count) := fieldOp_encode _
theorem shcReg (ra rb rc : Reg) : Statement (.shcReg ra rb rc) := fieldOp_encode _
theorem shcConst (ra rb : Reg) (count : BitVec 5) : Statement (.shcConst ra rb count) := fieldOp_encode _
theorem brnv : Statement .brnv := fieldOp_encode _
theorem br (rb : Reg) : Statement (.br rb) := fieldOp_encode _
theorem brzr (rb rc : Reg) : Statement (.brzr rb rc) := fieldOp_encode _
theorem brnz (rb rc : Reg) : Statement (.brnz rb rc) := fieldOp_encode _
theorem brpl (rb rc : Reg) : Statement (.brpl rb rc) := fieldOp_encode _
theorem brmi (rb rc : Reg) : Statement (.brmi rb rc) := fieldOp_encode _
theorem brReservedCond : Statement .brReservedCond := fieldOp_encode _
theorem brlnv (ra : Reg) : Statement (.brlnv ra) := fieldOp_encode _
theorem brl (ra rb : Reg) : Statement (.brl ra rb) := fieldOp_encode _
theorem brlzr (ra rb rc : Reg) : Statement (.brlzr ra rb rc) := fieldOp_encode _
theorem brlnz (ra rb rc : Reg) : Statement (.brlnz ra rb rc) := fieldOp_encode _
theorem brlpl (ra rb rc : Reg) : Statement (.brlpl ra rb rc) := fieldOp_encode _
theorem brlmi (ra rb rc : Reg) : Statement (.brlmi ra rb rc) := fieldOp_encode _
theorem brlReservedCond : Statement .brlReservedCond := fieldOp_encode _
theorem nop : Statement .nop := fieldOp_encode _
theorem stop : Statement .stop := fieldOp_encode _
theorem een : Statement .een := fieldOp_encode _
theorem edi : Statement .edi := fieldOp_encode _
theorem rfi : Statement .rfi := fieldOp_encode _
theorem svi (ra rb : Reg) : Statement (.svi ra rb) := fieldOp_encode _
theorem ri (ra rb : Reg) : Statement (.ri ra rb) := fieldOp_encode _
theorem unusedOp7 : Statement .unusedOp7 := fieldOp_encode _
theorem unusedOp18 : Statement .unusedOp18 := fieldOp_encode _
theorem unusedOp19 : Statement .unusedOp19 := fieldOp_encode _
theorem unusedOp25 : Statement .unusedOp25 := fieldOp_encode _

end Sys2Proof.Laws.EncodedOp
end

