-- ==== Sys2Proof/Laws/Step.lean ====
section
/-! SUPPORT. What a step can do, said once: the inversion lemmas of `step`. -/

namespace Sys2Proof.Machine

@[simp] theorem recordWord_next (w : Word) (s : State) : recordWord w (.next s) = .next s := rfl
@[simp] theorem recordWord_fault (w : Word) (e : Fault) : recordWord w (.fault e) = .fault (e.withWord w) := rfl
@[simp] theorem recordWord_refused (w : Word) (e : Refusal) : recordWord w (.refused e) = .refused e := rfl

theorem recordWord_eq_next {w : Word} {x : Result State} {t : State} (h : recordWord w x = .next t) : x = .next t := by
  cases x with
  | next s => simpa using h
  | fault e => simp at h
  | refused e => simp at h

/-- The fetched word put into a fault leaves the state in it alone. -/
@[simp] theorem left_withWord (w : Word) (e : Fault) : (e.withWord w).left = e.left := by cases e <;> rfl

/-- A halted machine has no step. -/
theorem step_halted {s : State} (h : s.run = false) : step s = .fault .halted := by
  simp [step, machineStep, stepUnder, h]

/-- A step that accepts a request. -/
theorem step_accepts {s : State} {q : IrqRequest} (h : Accepts s q) : step s = .next (interruptEntry q s.passBoundary) := by
  obtain ⟨hr, hi, hq⟩ := h
  simp [step, machineStep, stepUnder, hr, hi, hq]

/-- A step that runs an instruction is the rest of the step loop. -/
theorem step_executes {s : State} (h : Executes s) : step s = runInstruction config exec s.passBoundary := by
  obtain ⟨hr, hi | hq⟩ := h
  · simp [step, machineStep, stepUnder, hr, hi]
  · simp only [step, machineStep, stepUnder, hq, State.run_passBoundary, hr, Bool.true_eq_false, if_false]
    split <;> simp_all

/-- A step that fetches a word is `exec` of its decoding. -/
theorem step_fetched {s : State} {w : Word} (h : Executes s) (hw : fetch config s = .next w) :
    step s = recordWord w (exec (decodeWord w) (afterFetch s)) := by
  rw [step_executes h, runInstruction, fetch_passBoundary.2 hw]; rfl

/-- Every state is halted, accepts a request, or executes. -/
theorem boundary_cases (s : State) : s.run = false ∨ (∃ q, Accepts s q) ∨ Executes s := by
  unfold Accepts Executes
  cases hr : s.run <;> cases hi : s.ie <;> cases hq : s.presented <;> simp

/-- What a step that answers a next state can be: interrupt entry, or one instruction on the state after its fetch. -/
theorem step_cases {s t : State} (h : step s = .next t) :
    (∃ q, Accepts s q ∧ t = interruptEntry q s.passBoundary) ∨
    (∃ w, Executes s ∧ fetch config s = .next w ∧ exec (decodeWord w) (afterFetch s) = .next t) := by
  rcases boundary_cases s with hr | ⟨q, hq⟩ | he
  · rw [step_halted hr] at h; cases h
  · rw [step_accepts hq] at h; cases h; exact .inl ⟨q, hq, rfl⟩
  · rw [step_executes he] at h
    obtain ⟨w, hw, hx⟩ := andThen_eq_next h
    exact .inr ⟨w, he, fetch_passBoundary.1 hw, recordWord_eq_next hx⟩

end Sys2Proof.Machine
end

