-- ==== Sys2Proof/Tests/Slice0.lean ====
section
/-! SUPPORT. Tests: ill-formed terms, words written out from the spec's encodings, one-step vectors of 95_test_vectors.md (named by
their ids there), and for every obligation with hypotheses a state and operands that meet them. No expected value here comes from
the model. -/

namespace Sys2Proof.Tests

open Sys2Proof.Machine

/-! ## Helpers -/

/-- The value of a part that goes on. -/
def nextOf {α : Type} (x : Result α) : Option α :=
  match x with
  | .next a => some a
  | .fault _ => none
  | .refused _ => none

/-- The fault of a part that stops with one. -/
def faultOf {α : Type} (x : Result α) : Option Fault :=
  match x with
  | .next _ => none
  | .fault e => some e
  | .refused _ => none

theorem next_of_nextOf {α : Type} {x : Result α} {a : α} (h : nextOf x = some a) : x = .next a := by
  cases x <;> simp_all [nextOf]

theorem exists_next {α : Type} {x : Result α} (h : (nextOf x).isSome = true) : ∃ a, x = .next a := by
  cases x <;> simp_all [nextOf]

theorem fault_of_faultOf {α : Type} {x : Result α} {e : Fault} (h : faultOf x = some e) : x = .fault e := by
  cases x <;> simp_all [faultOf]

/-- Words stored in memory, big-endian. -/
def withWords (s : State) : List (Word × Word) → State
  | [] => s
  | (a, v) :: rest => withWords (s.setMem (writeWord .bigEndian s.mem a v)) rest

/-- Registers set. -/
def withRegs (s : State) : List (Reg × Word) → State
  | [] => s
  | (i, v) :: rest => withRegs (s.setReg i v) rest

/-- The state of a vector: reset, the instruction word at PC, registers and words of memory set, no request. -/
def machineAt (pc w : Word) (regs : List (Reg × Word)) (words : List (Word × Word)) : State :=
  (withRegs (withWords (withWords State.reset words) [(pc, w)]) regs).setPc pc

/-- At address 100H, as in most vectors. -/
def machine (w : Word) (regs : List (Reg × Word)) (words : List (Word × Word)) : State := machineAt 0x100#32 w regs words

/-- What a field of the state is after one step. -/
def after {α : Type} (s : State) (f : State → α) : Option α := (nextOf (step s)).map f

/-! ## Ill-formed instructions are refused: one for each check of WellFormed.lean -/

theorem test_ld_displacement_r0_is_ill_formed : (Instr.ldDisp 3 0 100#17).wf = false := by decide
theorem test_st_displacement_r0_is_ill_formed : (Instr.stDisp 3 0 100#17).wf = false := by decide
theorem test_la_displacement_r0_is_ill_formed : (Instr.laDisp 3 0 100#17).wf = false := by decide
theorem test_shr_count_zero_is_ill_formed : (Instr.shrConst 3 1 0#5).wf = false := by decide
theorem test_shra_count_zero_is_ill_formed : (Instr.shraConst 3 1 0#5).wf = false := by decide
theorem test_shl_count_zero_is_ill_formed : (Instr.shlConst 3 1 0#5).wf = false := by decide
theorem test_shc_count_zero_is_ill_formed : (Instr.shcConst 3 1 0#5).wf = false := by decide

/-! ## Decoding: every constructor's word written field by field from 30_encoding.md R62 to R74 and R160 -/

/-- Formats 1 and 2: op, ra, rb, c2 and op, ra, c1 (R62, R63). -/
theorem test_decode_load_and_store :
    [0b00001#5 ++ 0b00011#5 ++ 0b00000#5 ++ 0b00000000001100100#17,
     0b00001#5 ++ 0b00011#5 ++ 0b00101#5 ++ 0b11111111111111100#17,
     0b00010#5 ++ 0b00001#5 ++ 0b1111111111111111111000#22,
     0b00011#5 ++ 0b00011#5 ++ 0b00000#5 ++ 0b00000000001100100#17,
     0b00011#5 ++ 0b00011#5 ++ 0b00101#5 ++ 0b00000000000000100#17,
     0b00100#5 ++ 0b00101#5 ++ 0b0000000000000000001000#22,
     0b00101#5 ++ 0b00010#5 ++ 0b00000#5 ++ 0b11111111111111111#17,
     0b00101#5 ++ 0b00010#5 ++ 0b00111#5 ++ 0b00000000000001100#17,
     0b00110#5 ++ 0b00110#5 ++ 0b0000000000000000101101#22].map decodeWord =
    [.ldAbs 3 100#17, .ldDisp 3 5 (-4#17), .ldr 1 (-8#22), .stAbs 3 100#17, .stDisp 3 5 4#17, .str 5 8#22, .laAbs 2 (-1#17),
     .laDisp 2 7 12#17, .lar 6 45#22] := by decide

/-- Formats 6, 1 and 3: three registers, an immediate, and the source in the rc field of neg and not (R64, R67). -/
theorem test_decode_arithmetic :
    [0b01100#5 ++ 0b00011#5 ++ 0b00001#5 ++ 0b00010#5 ++ 0b000000000000#12,
     0b01101#5 ++ 0b00010#5 ++ 0b00100#5 ++ 0b00000000000000001#17,
     0b01110#5 ++ 0b00011#5 ++ 0b00001#5 ++ 0b00010#5 ++ 0b000000000000#12,
     0b01111#5 ++ 0b00111#5 ++ 0b00000#5 ++ 0b01001#5 ++ 0b000000000000#12,
     0b10110#5 ++ 0b00011#5 ++ 0b00001#5 ++ 0b00010#5 ++ 0b000000000000#12,
     0b10111#5 ++ 0b00010#5 ++ 0b00010#5 ++ 0b00000000000001111#17,
     0b10100#5 ++ 0b00011#5 ++ 0b00001#5 ++ 0b00010#5 ++ 0b000000000000#12,
     0b10101#5 ++ 0b00001#5 ++ 0b00010#5 ++ 0b11111111111111111#17,
     0b11000#5 ++ 0b00011#5 ++ 0b00000#5 ++ 0b00001#5 ++ 0b000000000000#12].map decodeWord =
    [.add 3 1 2, .addi 2 4 1#17, .sub 3 1 2, .neg 7 9, .or 3 1 2, .ori 2 2 15#17, .and 3 1 2, .andi 1 2 (-1#17), .not 3 1] := by
  decide

/-- Formats 7b and 7a: the register form with c3[4:0] = 0, the constant form otherwise (R68). -/
theorem test_decode_shift :
    [0b11010#5 ++ 0b00011#5 ++ 0b00001#5 ++ 0b00010#5 ++ 0b0000000#7 ++ 0b00000#5,
     0b11010#5 ++ 0b00000#5 ++ 0b00001#5 ++ 0b00000#5 ++ 0b0000000#7 ++ 0b00100#5,
     0b11011#5 ++ 0b00011#5 ++ 0b00001#5 ++ 0b00010#5 ++ 0b0000000#7 ++ 0b00000#5,
     0b11011#5 ++ 0b00011#5 ++ 0b00001#5 ++ 0b00000#5 ++ 0b0000000#7 ++ 0b11111#5,
     0b11100#5 ++ 0b00010#5 ++ 0b00100#5 ++ 0b00110#5 ++ 0b0000000#7 ++ 0b00000#5,
     0b11100#5 ++ 0b00011#5 ++ 0b00001#5 ++ 0b00000#5 ++ 0b0000000#7 ++ 0b00100#5,
     0b11101#5 ++ 0b00011#5 ++ 0b00001#5 ++ 0b00010#5 ++ 0b0000000#7 ++ 0b00000#5,
     0b11101#5 ++ 0b00011#5 ++ 0b00001#5 ++ 0b00000#5 ++ 0b0000000#7 ++ 0b01000#5].map decodeWord =
    [.shrReg 3 1 2, .shrConst 0 1 4#5, .shraReg 3 1 2, .shraConst 3 1 31#5, .shlReg 2 4 6, .shlConst 3 1 4#5, .shcReg 3 1 2,
     .shcConst 3 1 8#5] := by decide

/-- Format 4: op 8, the condition in bits 2..0 (R65, R160), 6 and 7 reserved (R78). -/
theorem test_decode_branch :
    [0b01000#5 ++ 0b00000#5 ++ 0b00000#5 ++ 0b00000#5 ++ 0b000000000#9 ++ 0b000#3,
     0b01000#5 ++ 0b00000#5 ++ 0b00100#5 ++ 0b00000#5 ++ 0b000000000#9 ++ 0b001#3,
     0b01000#5 ++ 0b00000#5 ++ 0b00100#5 ++ 0b00010#5 ++ 0b000000000#9 ++ 0b010#3,
     0b01000#5 ++ 0b00000#5 ++ 0b00100#5 ++ 0b00010#5 ++ 0b000000000#9 ++ 0b011#3,
     0b01000#5 ++ 0b00000#5 ++ 0b00100#5 ++ 0b00010#5 ++ 0b000000000#9 ++ 0b100#3,
     0b01000#5 ++ 0b00000#5 ++ 0b00100#5 ++ 0b00010#5 ++ 0b000000000#9 ++ 0b101#3,
     0b01000#5 ++ 0b00000#5 ++ 0b00100#5 ++ 0b00010#5 ++ 0b000000000#9 ++ 0b110#3,
     0b01000#5 ++ 0b00000#5 ++ 0b00100#5 ++ 0b00010#5 ++ 0b000000000#9 ++ 0b111#3].map decodeWord =
    [.brnv, .br 4, .brzr 4 2, .brnz 4 2, .brpl 4 2, .brmi 4 2, .brReservedCond, .brReservedCond] := by decide

/-- Format 5: op 9, the link register in ra (R66, R160). -/
theorem test_decode_branch_and_link :
    [0b01001#5 ++ 0b00110#5 ++ 0b00000#5 ++ 0b00000#5 ++ 0b000000000#9 ++ 0b000#3,
     0b01001#5 ++ 0b00110#5 ++ 0b00100#5 ++ 0b00000#5 ++ 0b000000000#9 ++ 0b001#3,
     0b01001#5 ++ 0b00110#5 ++ 0b00100#5 ++ 0b00010#5 ++ 0b000000000#9 ++ 0b010#3,
     0b01001#5 ++ 0b00110#5 ++ 0b00100#5 ++ 0b00010#5 ++ 0b000000000#9 ++ 0b011#3,
     0b01001#5 ++ 0b00110#5 ++ 0b00100#5 ++ 0b00010#5 ++ 0b000000000#9 ++ 0b100#3,
     0b01001#5 ++ 0b00110#5 ++ 0b00100#5 ++ 0b00010#5 ++ 0b000000000#9 ++ 0b101#3,
     0b01001#5 ++ 0b00110#5 ++ 0b00100#5 ++ 0b00010#5 ++ 0b000000000#9 ++ 0b110#3,
     0b01001#5 ++ 0b00110#5 ++ 0b00100#5 ++ 0b00010#5 ++ 0b000000000#9 ++ 0b111#3].map decodeWord =
    [.brlnv 6, .brl 6 4, .brlzr 6 4 2, .brlnz 6 4 2, .brlpl 6 4 2, .brlmi 6 4 2, .brlReservedCond, .brlReservedCond] := by decide

/-- Formats 8 and 9, and the four operation codes that name no instruction (R69, R70, R76). -/
theorem test_decode_miscellaneous :
    [0b00000#5 ++ 0#27, 0b11111#5 ++ 0#27, 0b01010#5 ++ 0#27, 0b01011#5 ++ 0#27, 0b11110#5 ++ 0#27,
     0b10000#5 ++ 0b10100#5 ++ 0b10101#5 ++ 0#17, 0b10001#5 ++ 0b10100#5 ++ 0b10101#5 ++ 0#17,
     0b00111#5 ++ 0#27, 0b10010#5 ++ 0#27, 0b10011#5 ++ 0#27, 0b11001#5 ++ 0#27].map decodeWord =
    [.nop, .stop, .een, .edi, .rfi, .svi 20 21, .ri 20 21, .unusedOp7, .unusedOp18, .unusedOp19, .unusedOp25] := by decide

/-- V-ENC-1: the textbook's own word, in the order of its bytes in memory (R60), through the host's view of the decoder. -/
theorem test_textbook_word :
    decodeTableWord 32 0x0D880018 = some (.ldDisp 22 4 24#17) ∧
    config.encodeBytes (.ldDisp 22 4 24#17) = [0x0D#8, 0x88#8, 0x00#8, 0x18#8] := by decide

/-- V-AR-24, V-BR-20, V-SH-6, V-SH-7, V-MI-15, V-MI-16: unused bits take no part (R77). -/
theorem test_unused_bits :
    [0x79CA9123#32, 0x40082FFA#32, 0xD0C22020#32, 0xD0C22024#32, 0x07FFFFFF#32, 0xFFFFFFFF#32].map decodeWord =
    [.neg 7 9, .brzr 4 2, .shrReg 3 1 2, .shrConst 3 1 4#5, .nop, .stop] := by decide

/-! ## One step each -/

/-- V-LS-1. -/
theorem test_ld_absolute_ignores_r0 :
    after (machine 0x08C00064#32 [(0, 0xFFFFFFF0#32)] [(0x00000064#32, 0xA1B2C3D4#32)]) (fun s => (s.reg 3, s.pc)) =
      some (0xA1B2C3D4#32, 0x00000104#32) := by decide
/-- V-LS-5. -/
theorem test_ld_most_negative :
    after (machine 0x08410000#32 [] [(0xFFFF0000#32, 0x11223344#32)]) (fun s => s.reg 1) =
      some 0x11223344#32 := by decide
/-- V-LS-4. -/
theorem test_ld_base_is_destination :
    after (machine 0x094A0000#32 [(5, 0x00000200#32)] [(0x00000200#32, 0x00000300#32)]) (fun s => s.reg 5) =
      some 0x00000300#32 := by decide
/-- V-LS-6. -/
theorem test_ld_displacement_wraps :
    after (machine 0x08CA0008#32 [(5, 0xFFFFFFFC#32)] [(0x00000004#32, 0x55667788#32)]) (fun s => s.reg 3) =
      some 0x55667788#32 := by decide
/-- V-LS-8. -/
theorem test_ldr_forward :
    after (machine 0x11400008#32 [] [(0x0000010C#32, 0x0BADF00D#32)]) (fun s => s.reg 5) =
      some 0x0BADF00D#32 := by decide
/-- V-LS-9. -/
theorem test_ldr_backward :
    after (machine 0x107FFFF8#32 [] [(0x000000FC#32, 0x600DCAFE#32)]) (fun s => s.reg 1) =
      some 0x600DCAFE#32 := by decide
/-- V-LS-12. -/
theorem test_st_absolute_ignores_r0 :
    after (machine 0x18C00064#32 [(3, 0x01020304#32), (0, 0x00000040#32)] []) (fun s => (s.wordAt 0x00000064#32, s.mem.written 0xA4)) =
      some (0x01020304#32, none) := by decide
/-- V-LS-10. -/
theorem test_st_big_endian :
    after (machine 0x18CA0004#32 [(3, 0xCAFEF00D#32), (5, 0x00000200#32)] []) (fun s => (s.byte 0x204#32, s.byte 0x205#32, s.byte 0x206#32, s.byte 0x207#32)) =
      some (0xCA#8, 0xFE#8, 0xF0#8, 0x0D#8) := by decide
/-- V-LS-11. -/
theorem test_st_source_is_base :
    after (machine 0x194A0000#32 [(5, 0x00000200#32)] []) (fun s => s.wordAt 0x00000200#32) =
      some 0x00000200#32 := by decide
/-- V-LS-13. -/
theorem test_str :
    after (machine 0x21400008#32 [(5, 0x13572468#32)] []) (fun s => s.wordAt 0x0000010C#32) =
      some 0x13572468#32 := by decide
/-- V-LS-15. -/
theorem test_la_absolute_sign_extends :
    after (machine 0x2881FFFF#32 [(0, 0x00000005#32)] []) (fun s => s.reg 2) =
      some 0xFFFFFFFF#32 := by decide
/-- V-LS-18. -/
theorem test_la_largest_constant : after (machine 0x2840FFFF#32 [] []) (fun s => s.reg 1) = some 0x0000FFFF#32 := by decide
/-- V-LS-16. -/
theorem test_la_displacement_wraps :
    after (machine 0x288E000C#32 [(7, 0xFFFFFFF8#32)] []) (fun s => s.reg 2) =
      some 0x00000004#32 := by decide
/-- V-LS-17. -/
theorem test_la_same_register :
    after (machine 0x29CE0004#32 [(7, 0x00001000#32)] []) (fun s => s.reg 7) =
      some 0x00001004#32 := by decide
/-- V-LS-20. -/
theorem test_lar_most_negative : after (machine 0x31A00000#32 [] []) (fun s => s.reg 6) = some 0xFFE00104#32 := by decide
/-- V-LS-22. -/
theorem test_lar_wraps :
    after (machineAt 0xFFFFFFFC#32 0x3180002D#32 [] []) (fun s => (s.reg 6, s.pc)) =
      some (0x0000002D#32, 0x00000000#32) := by decide
/-- V-AR-1. -/
theorem test_add_overflow_wraps :
    after (machine 0x60C22000#32 [(1, 0x7FFFFFFF#32), (2, 0x00000001#32)] []) (fun s => (s.reg 3, s.pc)) =
      some (0x80000000#32, 0x00000104#32) := by decide
/-- V-AR-4. -/
theorem test_add_writes_r0 :
    after (machine 0x60044000#32 [(2, 0x00000007#32), (4, 0x00000008#32)] []) (fun s => s.reg 0) =
      some 0x0000000F#32 := by decide
/-- V-AR-5. -/
theorem test_addi_reads_r0 :
    after (machine 0x6841FFFF#32 [(0, 0x00000010#32)] []) (fun s => s.reg 1) =
      some 0x0000000F#32 := by decide
/-- V-AR-6. -/
theorem test_addi_most_negative :
    after (machine 0x68450000#32 [(2, 0x00010000#32)] []) (fun s => s.reg 1) =
      some 0x00000000#32 := by decide
/-- V-AR-9. -/
theorem test_sub_operand_order :
    after (machine 0x70C22000#32 [(1, 0x00000005#32), (2, 0x00000007#32)] []) (fun s => s.reg 3) =
      some 0xFFFFFFFE#32 := by decide
/-- V-AR-11. -/
theorem test_sub_same_register :
    after (machine 0x70421000#32 [(1, 0xABCDEF01#32)] []) (fun s => s.reg 1) =
      some 0x00000000#32 := by decide
/-- V-AR-12. -/
theorem test_neg : after (machine 0x79C09000#32 [(9, 0x00000005#32)] []) (fun s => s.reg 7) = some 0xFFFFFFFB#32 := by decide
/-- V-AR-13. -/
theorem test_neg_most_negative :
    after (machine 0x78401000#32 [(1, 0x80000000#32)] []) (fun s => s.reg 1) =
      some 0x80000000#32 := by decide
/-- V-AR-15. -/
theorem test_or :
    after (machine 0xB0C22000#32 [(1, 0x0F0F0000#32), (2, 0x00FF00FF#32)] []) (fun s => s.reg 3) =
      some 0x0FFF00FF#32 := by decide
/-- V-AR-16. -/
theorem test_ori_sign_extends :
    after (machine 0xB8450000#32 [(2, 0x00001234#32)] []) (fun s => s.reg 1) =
      some 0xFFFF1234#32 := by decide
/-- V-AR-18. -/
theorem test_and :
    after (machine 0xA0C22000#32 [(1, 0x0F0F0F0F#32), (2, 0x00FF00FF#32)] []) (fun s => s.reg 3) =
      some 0x000F000F#32 := by decide
/-- V-AR-19. -/
theorem test_andi_sign_extends :
    after (machine 0xA845FFFF#32 [(2, 0x89ABCDEF#32)] []) (fun s => s.reg 1) =
      some 0x89ABCDEF#32 := by decide
/-- V-AR-20. -/
theorem test_andi_low_half :
    after (machine 0xA844FFFF#32 [(2, 0x12345678#32)] []) (fun s => s.reg 1) =
      some 0x00005678#32 := by decide
/-- V-AR-22. -/
theorem test_not : after (machine 0xC0C01000#32 [(1, 0x0000FFFF#32)] []) (fun s => s.reg 3) = some 0xFFFF0000#32 := by decide
/-- V-AR-23. -/
theorem test_not_is_no_truth_value :
    after (machine 0xC0401000#32 [(1, 0x00000000#32)] []) (fun s => s.reg 1) =
      some 0xFFFFFFFF#32 := by decide
/-- V-SH-4. -/
theorem test_shr_register_count_mod_32 :
    after (machine 0xD0C22000#32 [(1, 0xF0000000#32), (2, 0x00000024#32)] []) (fun s => s.reg 3) =
      some 0x0F000000#32 := by decide
/-- V-SH-5. -/
theorem test_shr_register_count_32 :
    after (machine 0xD0C22000#32 [(1, 0xF0000000#32), (2, 0x00000020#32)] []) (fun s => s.reg 3) =
      some 0xF0000000#32 := by decide
/-- V-SH-1. -/
theorem test_shr_constant :
    after (machine 0xD0020004#32 [(1, 0x80000010#32)] []) (fun s => s.reg 0) =
      some 0x08000001#32 := by decide
/-- V-SH-2. -/
theorem test_shr_constant_31 :
    after (machine 0xD0C2001F#32 [(1, 0x80000000#32)] []) (fun s => s.reg 3) =
      some 0x00000001#32 := by decide
/-- V-SH-12. -/
theorem test_shra_register :
    after (machine 0xD8C22000#32 [(1, 0xFFFFFF00#32), (2, 0xFFFFFFE4#32)] []) (fun s => s.reg 3) =
      some 0xFFFFFFF0#32 := by decide
/-- V-SH-11. -/
theorem test_shra_register_zero :
    after (machine 0xD8C22000#32 [(1, 0x80000000#32), (2, 0x00000000#32)] []) (fun s => s.reg 3) =
      some 0x80000000#32 := by decide
/-- V-SH-9. -/
theorem test_shra_constant_negative :
    after (machine 0xD8C2001F#32 [(1, 0x80000000#32)] []) (fun s => s.reg 3) =
      some 0xFFFFFFFF#32 := by decide
/-- V-SH-10. -/
theorem test_shra_constant_positive :
    after (machine 0xD8C2001F#32 [(1, 0x7FFFFFFF#32)] []) (fun s => s.reg 3) =
      some 0x00000000#32 := by decide
/-- V-SH-13. -/
theorem test_shl_register :
    after (machine 0xE0886000#32 [(4, 0x00000001#32), (6, 0x0000001F#32)] []) (fun s => s.reg 2) =
      some 0x80000000#32 := by decide
/-- V-SH-16. -/
theorem test_shl_register_64 :
    after (machine 0xE0C22000#32 [(1, 0x12345678#32), (2, 0x00000040#32)] []) (fun s => s.reg 3) =
      some 0x12345678#32 := by decide
/-- V-SH-14. -/
theorem test_shl_constant :
    after (machine 0xE0C20004#32 [(1, 0xF000000F#32)] []) (fun s => s.reg 3) =
      some 0x000000F0#32 := by decide
/-- V-SH-19. -/
theorem test_shc_register :
    after (machine 0xE8C22000#32 [(1, 0x12345678#32), (2, 0x0000001C#32)] []) (fun s => s.reg 3) =
      some 0x81234567#32 := by decide
/-- V-SH-21. -/
theorem test_shc_one_register :
    after (machine 0xE8421000#32 [(1, 0x00000004#32)] []) (fun s => s.reg 1) =
      some 0x00000040#32 := by decide
/-- V-SH-17. -/
theorem test_shc_constant_is_left :
    after (machine 0xE8C20008#32 [(1, 0x12345678#32)] []) (fun s => s.reg 3) =
      some 0x34567812#32 := by decide
/-- V-BR-2. -/
theorem test_brnv : after (machine 0x40000000#32 [] []) (fun s => s.pc) = some 0x00000104#32 := by decide
/-- V-BR-1. -/
theorem test_br : after (machine 0x40080001#32 [(4, 0x00000040#32)] []) (fun s => s.pc) = some 0x00000040#32 := by decide
/-- V-BR-3. -/
theorem test_brzr_taken :
    after (machine 0x40082002#32 [(4, 0x00000040#32), (2, 0x00000000#32)] []) (fun s => s.pc) =
      some 0x00000040#32 := by decide
/-- V-BR-4. -/
theorem test_brzr_not_taken :
    after (machine 0x40082002#32 [(4, 0x00000040#32), (2, 0x00000001#32)] []) (fun s => s.pc) =
      some 0x00000104#32 := by decide
/-- V-BR-5. -/
theorem test_brnz_taken :
    after (machine 0x40082003#32 [(4, 0x00000040#32), (2, 0x80000000#32)] []) (fun s => s.pc) =
      some 0x00000040#32 := by decide
/-- V-BR-6. -/
theorem test_brnz_not_taken :
    after (machine 0x40082003#32 [(4, 0x00000040#32), (2, 0x00000000#32)] []) (fun s => s.pc) =
      some 0x00000104#32 := by decide
/-- V-BR-7. -/
theorem test_brpl_zero_taken :
    after (machine 0x40082004#32 [(4, 0x00000040#32), (2, 0x00000000#32)] []) (fun s => s.pc) =
      some 0x00000040#32 := by decide
/-- V-BR-8. -/
theorem test_brpl_not_taken :
    after (machine 0x40082004#32 [(4, 0x00000040#32), (2, 0x80000000#32)] []) (fun s => s.pc) =
      some 0x00000104#32 := by decide
/-- V-BR-10. -/
theorem test_brmi_taken :
    after (machine 0x40082005#32 [(4, 0x00000040#32), (2, 0xFFFFFFFF#32)] []) (fun s => s.pc) =
      some 0x00000040#32 := by decide
/-- V-BR-11. -/
theorem test_brmi_not_taken :
    after (machine 0x40082005#32 [(4, 0x00000040#32), (2, 0x7FFFFFFF#32)] []) (fun s => s.pc) =
      some 0x00000104#32 := by decide
/-- V-BR-14. -/
theorem test_brlnv :
    after (machine 0x49800000#32 [] []) (fun s => (s.reg 6, s.pc)) =
      some (0x00000104#32, 0x00000104#32) := by decide
/-- V-BR-15. -/
theorem test_brl_link_is_target :
    after (machine 0x48420001#32 [(1, 0x00000200#32)] []) (fun s => (s.reg 1, s.pc)) =
      some (0x00000104#32, 0x00000200#32) := by decide
/-- V-BR-16. -/
theorem test_brlzr_link_is_tested :
    after (machine 0x49886002#32 [(4, 0x00000040#32), (6, 0x00000000#32)] []) (fun s => (s.reg 6, s.pc)) =
      some (0x00000104#32, 0x00000040#32) := by decide
/-- V-BR-12. -/
theorem test_brlnz_not_taken_links :
    after (machine 0x49882003#32 [(4, 0x00000040#32), (2, 0x00000000#32)] []) (fun s => (s.reg 6, s.pc)) =
      some (0x00000104#32, 0x00000104#32) := by decide
/-- V-BR-13. -/
theorem test_brlnz_taken :
    after (machine 0x49882003#32 [(4, 0x00000040#32), (2, 0x00000009#32)] []) (fun s => (s.reg 6, s.pc)) =
      some (0x00000104#32, 0x00000040#32) := by decide
/-- V-BR-9. -/
theorem test_brlpl_zero_taken :
    after (machine 0x49882004#32 [(4, 0x00000040#32), (2, 0x00000000#32)] []) (fun s => (s.reg 6, s.pc)) =
      some (0x00000104#32, 0x00000040#32) := by decide
/-- V-BR-21. -/
theorem test_brlmi_link_wraps :
    after (machineAt 0xFFFFFFFC#32 0x49882005#32 [(4, 0x00000040#32), (2, 0x80000000#32)] []) (fun s => (s.reg 6, s.pc)) =
      some (0x00000000#32, 0x00000040#32) := by decide
/-- V-MI-1. -/
theorem test_nop :
    after (machine 0x00000000#32 [] []) (fun s => (s.pc, s.run, s.ie)) =
      some (0x00000104#32, true, false) := by decide
/-- V-MI-2. -/
theorem test_stop : after (machine 0xF8000000#32 [] []) (fun s => (s.run, s.pc)) = some (false, 0x00000104#32) := by decide
/-- V-MI-3. -/
theorem test_een : after (machine 0x50000000#32 [] []) (fun s => (s.ie, s.pc)) = some (true, 0x00000104#32) := by decide
/-- V-MI-5. -/
theorem test_edi : after ((machine 0x58000000#32 [] []).setIe true) (fun s => s.ie) = some false := by decide
/-- V-MI-6. -/
theorem test_rfi : after ((machine 0xF0000000#32 [] []).setIpc 0xC#32) (fun s => (s.pc, s.ie, s.ipc)) =
    some (0xC#32, true, 0xC#32) := by decide
/-- V-MI-7: the low half of R[20] and R[21]; the upper half of R[20] is a free value, of which nothing is said. -/
theorem test_svi : after (((machine 0x852A0000#32 [] []).setIi 0xBEEF#16).setIpc 0xC#32)
    (fun s => (s.reg 21, s.ii, s.ipc, s.pc)) = some (0xC#32, 0xBEEF#16, 0xC#32, 0x104#32) := by decide
theorem test_svi_low_half (upper : Half) : (upper ++ 0xBEEF#16 : Word).extractLsb' 0 16 = 0xBEEF#16 :=
  (extract_append_low _ _ (by omega)).trans (extract_all _)
/-- V-MI-8. -/
theorem test_ri : after (machine 0x8D2A0000#32 [(20, 0x1234BEEF#32), (21, 0xC#32)] []) (fun s => (s.ii, s.ipc)) =
    some (0xBEEF#16, 0xC#32) := by decide
/-- V-MI-9. -/
theorem test_ri_same_register : after (machine 0x88420000#32 [(1, 0x00012340#32)] []) (fun s => (s.ii, s.ipc)) =
    some (0x2340#16, 0x00012340#32) := by decide

/-! ## Stops (60_exceptions.md R212) -/

/-- The step stops with the fault, and the state it leaves is the one before but for PC, which is `pc`. -/
abbrev StopsAt (s : State) (pc : Word) (f : State → Fault) : Prop := faultOf (step s) = some (f (s.setPc pc))

/-- V-LS-7. -/
theorem test_ld_misaligned :
    StopsAt (machine 0x08CA0004#32 [(5, 0x00000201#32)] []) 0x00000104#32 (.misalignedData 0x205#32) := by decide
/-- V-LS-14. -/
theorem test_st_misaligned :
    StopsAt (machine 0x18CA0002#32 [(3, 0x00000001#32), (5, 0x00000200#32)] []) 0x00000104#32 (.misalignedData 0x202#32) := by decide
/-- V-BR-17. -/
theorem test_br_condition_6 :
    StopsAt (machine 0x40082006#32 [(4, 0x00000040#32)] []) 0x00000104#32 (.reservedCondition 0x40082006#32) := by decide
/-- V-BR-18. -/
theorem test_brl_condition_7 :
    StopsAt (machine 0x49882007#32 [(4, 0x00000040#32)] []) 0x00000104#32 (.reservedCondition 0x49882007#32) := by decide
/-- V-MI-10. -/
theorem test_svi_same_register :
    StopsAt (machine 0x80420000#32 [] []) 0x00000104#32 (.conflictingWrite 0x80420000#32) := by decide
/-- V-MI-11. -/
theorem test_op_7 : StopsAt (machine 0x38000000#32 [] []) 0x00000104#32 (.illegalOpcode 0x38000000#32) := by decide
/-- V-MI-12. -/
theorem test_op_18 : StopsAt (machine 0x90000000#32 [] []) 0x00000104#32 (.illegalOpcode 0x90000000#32) := by decide
/-- V-MI-13. -/
theorem test_op_19 : StopsAt (machine 0x98000000#32 [] []) 0x00000104#32 (.illegalOpcode 0x98000000#32) := by decide
/-- V-MI-14. -/
theorem test_op_25 : StopsAt (machine 0xC8000000#32 [] []) 0x00000104#32 (.illegalOpcode 0xC8000000#32) := by decide
/-- V-IN-6. -/
theorem test_misaligned_fetch :
    StopsAt (machineAt 0x00000102#32 0x00000000#32 [] []) 0x00000102#32 (.misalignedFetch 0x102#32) := by decide

/-! ## Interrupts: the vectors' `add r3, r1, r2` with a request at the boundary before it -/

/-- The vectors' state: a request presented, IE as given. -/
def interrupted (ie : Bool) (info : Half) (vect : Byte) : State :=
  { (machine 0x60C22000#32 [(1, 1#32), (2, 2#32)] []).setIe ie with irq := [some ⟨info, vect⟩] }

/-- V-IN-1. -/
theorem test_interrupt_entry : after (interrupted true 0xBEEF#16 0x02#8) (fun s => (s.ipc, s.ii, s.ie, s.pc, s.reg 3, s.iack)) =
    some (0x100#32, 0xBEEF#16, false, 0x20#32, 0#32, true) := by decide
/-- V-IN-2. -/
theorem test_interrupt_disabled : after (interrupted false 0xBEEF#16 0x02#8) (fun s => (s.reg 3, s.pc, s.ipc, s.iack)) =
    some (3#32, 0x104#32, 0#32, false) := by decide
/-- V-IN-3. -/
theorem test_interrupt_highest_vector : after (interrupted true 0xFFFF#16 0xFF#8) (fun s => s.pc) = some 0xFF0#32 := by decide
/-- V-IN-5. -/
theorem test_interrupt_after_stop :
    faultOf (step ((interrupted true 0xBEEF#16 0x02#8).setRun false)) = some .halted := by decide

/-! ## Memory, reset, loader, assembler -/

/-- V-ME-1. -/
theorem test_write_big_endian :
    [0x200, 0x201, 0x202, 0x203].map (writeWord .bigEndian [] 0x200#32 0x12345678#32).read = [0x12#8, 0x34#8, 0x56#8, 0x78#8] := by
  decide
/-- V-ME-2. -/
theorem test_read_big_endian :
    nextOf (memRead config .misalignedData
      (State.reset.setMem [(0x300, 0xDE#8), (0x301, 0xAD#8), (0x302, 0xBE#8), (0x303, 0xEF#8)]) 0x300#32) =
    some 0xDEADBEEF#32 := by decide
/-- Writing a byte again replaces its entry (the model's canonical form, log entry 10). -/
theorem test_write_keeps_canonical_form : Memory.write [(4, 0x12#8), (6, 0x34#8)] 4 0#8 = [(4, 0#8), (6, 0x34#8)] := by decide
/-- R36: a byte that nothing has written is the free value of its address. -/
theorem test_unwritten_byte : State.reset.byte 0x64#32 = Config.freeByte 0x64 := rfl
/-- V-RS-1, V-RS-2, V-RS-3 and the rest of reset (R36). -/
theorem test_reset : State.reset.pc = 0#32 ∧ State.reset.run = true ∧ State.reset.ie = false ∧ State.reset.mem = [] ∧
    State.reset.irq = [] := by decide
/-- V-RS-5: the first instruction of a loaded program, here P1's `la r1, 5`, is at address 0. -/
theorem test_boot_runs_the_program :
    after (State.boot [(0, 0x28#8), (1, 0x40#8), (2, 0x00#8), (3, 0x05#8)]) (fun s => (s.reg 1, s.pc)) = some (5#32, 4#32) := by
  decide
/-- The host's placing: the next step runs the word, whatever Run was. -/
theorem test_with_fetch_word :
    after ((State.reset.setRun false).withFetchWord 32 0x2840FFFF) (fun s => (s.reg 1, s.pc)) = some (0xFFFF#32, 4#32) := by
  decide
/-- V-ME-4: the image, and 45H for the label after it. -/
theorem test_assembler_data :
    (match Asm.assembleText config ".org 64\n .dch 258, 3\n .dcb 255\nend: .dcb 1\n .dc end".toList with
      | .ok image => image.map Prod.snd
      | .error _ => []) =
    [0x01#8, 0x02#8, 0x00#8, 0x03#8, 0xFF#8, 0x01#8, 0x00#8, 0x00#8, 0x00#8, 0x45#8] := by decide
/-- V-SRC-1: `ld r3, A` with `A .equ 100`, and with the colon that R81 writes. -/
theorem test_assembler_equ :
    [".org 0\nA .equ 100\n ld r3, A".toList, ".org 0\nA: .equ 100\n ld r3, A".toList].map (fun text =>
      match Asm.assembleText config text with
      | .ok image => image.map Prod.snd
      | .error _ => []) =
    [[0x08#8, 0xC0#8, 0x00#8, 0x64#8], [0x08#8, 0xC0#8, 0x00#8, 0x64#8]] := by decide
/-- V-ENC-1, V-SRC-2, V-SRC-5, V-SRC-8: lines of the source and their words. -/
theorem test_assembler_lines :
    (match Asm.assembleText config " .org 0\n ld r22, 24(r4)\n lar r6, 45 ; comment\n brlnz r6, r4, r0".toList with
      | .ok image => image.map Prod.snd
      | .error _ => []) =
    [0x0D#8, 0x88#8, 0x00#8, 0x18#8, 0x31#8, 0x80#8, 0x00#8, 0x2D#8, 0x49#8, 0x88#8, 0x00#8, 0x03#8] := by decide


/-! ## Witnesses: states and operands that meet the hypotheses of each obligation, at the ends of its ranges -/

/-- `Executes`, decided. -/
theorem executes_of {s : State} (h : (s.run && (!s.ie || s.presented.isNone)) = true) : Executes s := by
  unfold Executes
  cases h1 : s.run <;> cases h2 : s.ie <;> cases h3 : s.presented <;> simp_all

/-- A step that completes in a state of which something holds. -/
theorem step_witness {s : State} {f : State → Bool} (h : (nextOf (step s)).any f = true) : ∃ t, step s = .next t ∧ f t = true := by
  cases hs : step s <;> simp_all [nextOf]

/-- `RunsInstr`, decided. -/
theorem runs_of {s : State} {w : Word} {i : Instr} (h : (s.run && (!s.ie || s.presented.isNone)) = true)
    (hw : nextOf (fetch config s) = some w) (hi : decodeWord w = i) : RunsInstr s i :=
  ⟨executes_of h, w, next_of_nextOf hw, hi⟩

/-- DecodeOfEncodeIsTheInstruction, BytesHoldOneInstructionEach, AssemblerEmitsTheEncoding: well-formed instructions with their fields
at the ends of their ranges. -/
theorem witness_well_formed :
    ∀ i ∈ [Instr.ldAbs 0 0x10000#17, .ldDisp 31 1 0xFFFF#17, .stDisp 0 31 0x10000#17, .laDisp 31 31 0#17, .lar 31 0x200000#22,
      .ldr 0 0x1FFFFF#22, .addi 31 0 0x1FFFF#17, .shrConst 0 31 1#5, .shcConst 31 0 31#5, .brlmi 31 31 31, .svi 31 0, .stop],
      i.wf = true ∧ (Asm.lineOf i).isSome = true := by decide

/-- BytesHoldOneInstructionEach, second clause: no byte, three bytes. -/
theorem witness_truncated : ([] : List Byte).length < 4 ∧ [1#8, 2#8, 3#8].length < 4 := by decide

/-- EncodeOfDecodeKeepsTheUsedBits and UnusedBitsDoNotChangeTheInstruction have no hypotheses; a word whose unused bits are all 1. -/
theorem witness_unused_bits : ignoredBits (decodeWord 0xFFFFFFFF#32) = 0x07FFFFFF#32 := by decide

/-- Every statement that says `DecodesAs` or `DecodesAsCond`: some word has any operation code and condition. -/
theorem witness_operation_codes (op : BitVec 5) (k : BitVec 3) : ∃ w : Word, fieldOp w = op ∧ fieldCond w = k :=
  ⟨op ++ (0#24 ++ k), (fieldOp_eq _).trans (extract_append_high op _), (fieldCond_eq _).trans <|
    (extract_append_low op _ (by omega)).trans ((extract_append_low _ _ (by omega)).trans (extract_all k))⟩

/-- WordWriteStoresFourBytes: the first and the last aligned address. -/
theorem witness_aligned_addresses : aligned 0#32 = true ∧ aligned 0xFFFFFFFC#32 = true := by decide

/-- WordReadJoinsFourBytes: an aligned address under the default, and the last byte of memory under bytewise. -/
theorem witness_word_read :
    (config.memMap = Config.allMemory ∧ config.byteOrder = .bigEndian ∧ PassesAlignment config 0xFFFFFFFC#32) ∧
    PassesAlignment { config with misaligned := .bytewise } 0xFFFFFFFF#32 :=
  ⟨⟨rfl, rfl, fun _ => by decide⟩, fun h => by cases h⟩

/-- A map with a read-only region, a gap and a device, to witness the clauses of AccessChecksComeInOrder at the ends of regions. -/
def patchyMap : Config :=
  { config with memMap := [{ base := 0, size := 8, readable := true, writable := false, kind := .memory },
      { base := 16, size := 4, readable := true, writable := true, kind := .device },
      { base := 32, size := 4, readable := false, writable := true, kind := .memory }] }

/-- AccessChecksComeInOrder, first clause. -/
theorem witness_fails_alignment : ¬ PassesAlignment config 1#32 ∧ ¬ PassesAlignment config 0xFFFFFFFF#32 := by
  unfold PassesAlignment; decide

/-- AccessChecksComeInOrder, second and third clauses, also MisalignedFetchStops: just past a region, in a region that does not permit
the access, and every address under an empty map. -/
theorem witness_no_memory :
    PassesAlignment patchyMap 8#32 ∧ (∀ g ∈ patchyMap.memMap, Holds g 8#32 → g.readable = false) ∧
    PassesAlignment patchyMap 32#32 ∧ (∀ g ∈ patchyMap.memMap, Holds g 32#32 → g.readable = false) ∧
    PassesAlignment patchyMap 4#32 ∧ (∀ g ∈ patchyMap.memMap, Holds g 4#32 → g.writable = false) ∧
    (∀ a : Word, ∀ g ∈ ({ config with memMap := [] } : Config).memMap, Holds g a → g.writable = false) := by
  refine ⟨?_, ?_, ?_, ?_, ?_, ?_, ?_⟩ <;> simp [PassesAlignment, patchyMap, Holds, aligned]

/-- AccessChecksComeInOrder, fourth and fifth clauses: the device. -/
theorem witness_device :
    PassesAlignment patchyMap 16#32 ∧ (∃ g ∈ patchyMap.memMap, Holds g 16#32 ∧ g.readable = true) ∧
    (∀ g ∈ patchyMap.memMap, Holds g 16#32 → g.readable = true → g.kind = .device) ∧
    (∃ g ∈ patchyMap.memMap, Holds g 16#32 ∧ g.writable = true) ∧
    (∀ g ∈ patchyMap.memMap, Holds g 16#32 → g.writable = true → g.kind = .device) := by
  refine ⟨?_, ?_, ?_, ?_, ?_⟩ <;> simp [PassesAlignment, patchyMap, Holds, aligned]

/-- StoredWordIsLoadedBack: each form of a store completes, at the last word of memory too. -/
theorem witness_stores_complete :
    (∃ t, exec (.stAbs 3 (-4#17)) (machine 0#32 [(3, 1#32)] []) = .next t) ∧
    (∃ t, exec (.stDisp 3 31 4#17) (machine 0#32 [(31, 0xFFFFFFFC#32)] []) = .next t) ∧
    (∃ t, exec (.str 3 0x200000#22) (machine 0#32 [] []) = .next t) :=
  ⟨exists_next (by decide), exists_next (by decide), exists_next (by decide)⟩

/-- StepKeepsMemoryCanonical: a canonical memory and a step that stores. -/
theorem witness_canonical_step :
    (machine 0x18C00064#32 [(3, 0x01000304#32)] []).Inv ∧ ∃ t, step (machine 0x18C00064#32 [(3, 0x01000304#32)] []) = .next t :=
  ⟨by unfold State.Inv; decide, exists_next (by decide)⟩

/-- BootMemoryIsCanonical: bytes at both ends of memory, given out of order and one of them twice. -/
theorem witness_image : ∀ c ∈ ([(0xFFFFFFFF, 1#8), (0, 2#8), (0, 0#8)] : Image), c.1 < 2 ^ 32 := by decide

/-- CanonicalMemoriesWrittenAlikeAreEqual: memories written in two orders. -/
theorem witness_canonical_memories :
    let m := Memory.write (Memory.write [] 0 1#8) 0xFFFFFFFF 2#8
    let n := Memory.write (Memory.write [] 0xFFFFFFFF 2#8) 0 1#8
    m.wf = true ∧ n.wf = true ∧ ∀ a, a < 2 ^ 32 → m.written a = n.written a := by
  refine ⟨by decide, by decide, fun a _ => ?_⟩
  simp only [Memory.written_write]
  by_cases h : a = 0
  · subst h; simp
  · simp [Ne.symm h]

/-- EffectiveAddressesAreTheSpecsSums: a base register other than number 0. -/
theorem witness_base_register : (1 : Reg) ≠ 0 ∧ (31 : Reg) ≠ 0 := by decide

/-- LoadsReadTheAddressedWord, StoresWriteTheAddressedWord: aligned addresses by all three modes, the ends of the constants' ranges. -/
theorem witness_aligned_operands :
    aligned (absAddress (machine 0#32 [] []) 0x10000#17) = true ∧ aligned (absAddress (machine 0#32 [] []) 0xFFFC#17) = true ∧
    aligned (dispAddress (machine 0#32 [(31, 3#32)] []) 31 0xFFFD#17) = true ∧
    aligned (dispAddress (machine 0#32 [(0, 3#32)] []) 0 0xFFFC#17) = true ∧
    aligned (relAddress (machine 0#32 [] []) 0x200000#22) = true ∧
    aligned (relAddress (machine 0#32 [] []) 0x1FFFFC#22) = true := by decide

/-- MisalignedDataAccessStops: addresses that leave 1, 2 and 3, by each mode. -/
theorem witness_misaligned_operands :
    (absAddress (machine 0#32 [] []) 0xFFFF#17).toNat % 4 ≠ 0 ∧ (absAddress (machine 0#32 [] []) 1#17).toNat % 4 ≠ 0 ∧
    (dispAddress (machine 0#32 [(5, 0x200#32)] []) 5 2#17).toNat % 4 ≠ 0 ∧
    (relAddress (machine 0#32 [] []) 0x1FFFFF#22).toNat % 4 ≠ 0 := by decide

/-- ReservedConditionsStop: the vectors' words, conditions 6 and 7, of br and brl. -/
theorem witness_reserved_conditions :
    ∀ w ∈ [0x40082006#32, 0x40082007#32, 0x49882006#32, 0x49882007#32],
      Executes (machine w [] []) ∧ fetch config (machine w [] []) = .next w ∧ (fieldOp w = 8#5 ∨ fieldOp w = 9#5) ∧
      6 ≤ (fieldCond w).toNat := by
  intro w hw
  simp only [List.mem_cons, List.not_mem_nil, or_false] at hw
  rcases hw with rfl | rfl | rfl | rfl <;>
    exact ⟨executes_of (by decide), next_of_nextOf (by decide), by decide, by decide⟩

/-- MisalignedTargetIsCaughtAtTheNextFetch: V-BR-19, and each condition at its boundary, with and without link. -/
theorem witness_misaligned_target :
    (RunsInstr (machine 0x40080001#32 [(4, 0x42#32)] []) (.br 4) ∧ ((machine 0x40080001#32 [(4, 0x42#32)] []).reg 4).toNat % 4 ≠ 0) ∧
    (RunsInstr (machine 0x48420001#32 [(1, 0x201#32)] []) (.brl 1 1)) ∧
    (RunsInstr (machine 0x40082002#32 [] []) (.brzr 4 2) ∧ (machine 0x40082002#32 [] []).reg 2 = 0#32) ∧
    (RunsInstr (machine 0x49882003#32 [(2, 1#32)] []) (.brlnz 6 4 2) ∧ (machine 0x49882003#32 [(2, 1#32)] []).reg 2 ≠ 0#32) ∧
    (RunsInstr (machine 0x49882004#32 [] []) (.brlpl 6 4 2) ∧ 0 ≤ ((machine 0x49882004#32 [] []).reg 2).toInt) ∧
    (RunsInstr (machine 0x40082005#32 [(2, 0xFFFFFFFF#32)] []) (.brmi 4 2) ∧
      ((machine 0x40082005#32 [(2, 0xFFFFFFFF#32)] []).reg 2).toInt < 0) :=
  ⟨⟨runs_of (w := 0x40080001#32) (by decide) (by decide) (by decide), by decide⟩,
    runs_of (w := 0x48420001#32) (by decide) (by decide) (by decide),
    ⟨runs_of (w := 0x40082002#32) (by decide) (by decide) (by decide), by decide⟩,
    ⟨runs_of (w := 0x49882003#32) (by decide) (by decide) (by decide), by decide⟩,
    ⟨runs_of (w := 0x49882004#32) (by decide) (by decide) (by decide), by decide⟩,
    ⟨runs_of (w := 0x40082005#32) (by decide) (by decide) (by decide), by decide⟩⟩

/-- MisalignedTargetIsCaughtAtTheNextFetch: both ways in which no request is accepted at the next boundary. -/
theorem witness_no_request_next :
    (machine 0x40080001#32 [(4, 0x42#32)] []).ie = false ∧
    (afterFetch { (machine 0x40080001#32 [(4, 0x42#32)] []).setIe true with irq := [none, none] }).presented = none := ⟨rfl, rfl⟩

/-- StopHaltsForGood, last clause: an instruction that completes on a state whose Run is 0. -/
theorem witness_run_is_zero :
    (∃ t, exec .een (State.reset.setRun false) = .next t) ∧ (State.reset.setRun false).run = false :=
  ⟨exists_next (by decide), by decide⟩

/-- EnableAndDisableActAtTheNextBoundary: a request at the boundary after een, and an instruction that sets IE. -/
theorem witness_enable :
    (State.reset.run = true ∧ ({ State.reset with irq := [some ⟨0#16, 0#8⟩] }.setIe true).presented = some ⟨0#16, 0#8⟩) ∧
    ∃ t, exec .rfi State.reset = .next t ∧ State.reset.ie = false ∧ t.ie = true :=
  ⟨by decide, interruptReturn State.reset, rfl, by decide, by decide⟩

/-- ReturnFromInterruptRestoresPcAndEnables: a request at the boundary after it, and none with IPC leaving 1, 2 and 3. -/
theorem witness_return :
    (State.reset.run = true ∧ { State.reset with irq := [some ⟨1#16, 255#8⟩] }.presented = some ⟨1#16, 255#8⟩) ∧
    ∀ v ∈ [1#32, 2#32, 0xFFFFFFFF#32], (State.reset.setIpc v).presented = none ∧ (State.reset.setIpc v).ipc.toNat % 4 ≠ 0 := by
  refine ⟨⟨rfl, rfl⟩, fun v hv => ?_⟩
  simp only [List.mem_cons, List.not_mem_nil, or_false] at hv
  rcases hv with rfl | rfl | rfl <;> exact ⟨rfl, by decide⟩

/-- SaveInterruptStateWritesTwoRegisters, SaveUpperHalfFollowsTheParameter: different registers, and V-MI-10. -/
theorem witness_save :
    (0 : Reg) ≠ 31 ∧ Executes (machine 0x80420000#32 [] []) ∧ fetch config (machine 0x80420000#32 [] []) = .next 0x80420000#32 ∧
    fieldOp 0x80420000#32 = 16#5 ∧ fieldRa 0x80420000#32 = fieldRb 0x80420000#32 ∧
    ({ config with sviUpper := .unchanged } : Config).sviUpper = .unchanged ∧
    ({ config with sviUpper := .zero } : Config).sviUpper = .zero :=
  ⟨by decide, executes_of (by decide), next_of_nextOf (by decide), by decide, by decide, rfl, rfl⟩

/-- SavedInterruptStateIsRestored: svi completes, and the state it leaves keeps the two registers. -/
theorem witness_saved_state :
    ∃ t u : State, exec (.svi 20 21) State.reset = .next t ∧ u.reg 20 = t.reg 20 ∧ u.reg 21 = t.reg 21 :=
  ⟨saveInterruptState config 20 21 State.reset, saveInterruptState config 20 21 State.reset, rfl, rfl, rfl⟩

/-- UnusedOperationCodesStop: a word of each code, its other bits 0 or 1. -/
theorem witness_unused_operation_codes :
    ∀ w ∈ [0x38000000#32, 0x97FFFFFF#32, 0x98000000#32, 0xCFFFFFFF#32],
      Executes (machine w [] []) ∧ fetch config (machine w [] []) = .next w ∧ fieldOp w ∈ [7#5, 18#5, 19#5, 25#5] := by
  intro w hw
  simp only [List.mem_cons, List.not_mem_nil, or_false] at hw
  rcases hw with rfl | rfl | rfl | rfl <;> exact ⟨executes_of (by decide), next_of_nextOf (by decide), by decide⟩

/-- StepRunsTheDecodedInstruction: at the last word of memory. -/
theorem witness_decoded_bytes :
    let s := machineAt 0xFFFFFFFC#32 0x60C22000#32 [] []
    Executes s ∧ aligned s.pc = true ∧
    config.decodeBytes [s.byte s.pc, s.byte (s.pc + 1), s.byte (s.pc + 2), s.byte (s.pc + 3)] = .ok (.add 3 1 2, []) :=
  ⟨executes_of (by decide), by decide, rfl⟩

/-- AcceptedRequestEntersTheHandler, InterruptedProgramResumes: V-IN-3 and V-IN-4, the ends of the vector numbers. -/
theorem witness_accepts :
    Accepts (interrupted true 0xFFFF#16 0xFF#8) ⟨0xFFFF#16, 0xFF#8⟩ ∧ Accepts (interrupted true 0x0001#16 0x00#8) ⟨0x0001#16, 0x00#8⟩ := by
  unfold Accepts; decide

/-- DisabledRequestsHaveNoEffect: IE is 0 and the step completes. -/
theorem witness_disabled :
    (interrupted false 0xBEEF#16 0x02#8).ie = false ∧ ∃ t, step (interrupted false 0xBEEF#16 0x02#8) = .next t :=
  ⟨by decide, exists_next (by decide)⟩

/-- EnableAndDisableActAtTheNextBoundary: a step after edi that completes, with a request that is ignored, and one that runs ri. -/
theorem witness_after_edi :
    (∃ t, exec .edi (interrupted true 0xBEEF#16 0x02#8) = .next t ∧ ∃ u, step t = .next u) ∧
    ∃ u, step ((machine 0x88420000#32 [(1, 0x00012340#32)] []).setIe false) = .next u ∧ u.ipc ≠ 0#32 :=
  ⟨⟨_, rfl, exists_next (by decide)⟩, (step_witness (f := fun u => u.ipc != 0#32) (by decide)).imp fun _ h => ⟨h.1, by simpa using h.2⟩⟩

/-- StepFaultsAreThoseOfTheSpec: the faults under the default map are all raised (the tests under Stops show the others). -/
theorem witness_faults :
    step (State.reset.setRun false) = .fault .halted ∧
    step (State.reset.setPc 0xFFFFFFFF#32) = .fault (.misalignedFetch 0xFFFFFFFF#32 (State.reset.setPc 0xFFFFFFFF#32)) ∧
    step (machine 0x08410001#32 [] []) = .fault (.misalignedData 0xFFFF0001#32 ((machine 0x08410001#32 [] []).setPc 0x104#32)) :=
  ⟨fault_of_faultOf (by decide), fault_of_faultOf (by decide), fault_of_faultOf (by decide)⟩

/-- MisalignedFetchStops: an instruction is due and PC leaves 1, 2, 3. -/
theorem witness_misaligned_pc :
    ∀ v ∈ [1#32, 2#32, 0xFFFFFFFF#32], Executes (State.reset.setPc v) ∧ (State.reset.setPc v).pc.toNat % 4 ≠ 0 := by
  intro v hv
  simp only [List.mem_cons, List.not_mem_nil, or_false] at hv
  rcases hv with rfl | rfl | rfl <;> exact ⟨executes_of (by decide), by decide⟩

/-- OtherInstructionsFallThrough: V-LS-22, at the last word of memory. -/
theorem witness_falls_through :
    RunsInstr (machineAt 0xFFFFFFFC#32 0x3180002D#32 [] []) (.lar 6 45#22) ∧
    (∃ t, step (machineAt 0xFFFFFFFC#32 0x3180002D#32 [] []) = .next t) ∧ opcode (.lar 6 45#22) ∉ [8#5, 9#5, 30#5] :=
  ⟨runs_of (w := 0x3180002D#32) (by decide) (by decide) (by decide), exists_next (by decide), by decide⟩

/-- StoreIntoTheNextInstructionIsFetched: P5's str, at the last word of memory too. -/
theorem witness_store_into_next :
    (RunsInstr (machine 0x20400000#32 [(1, 0xF8000000#32)] []) (.str 1 0#22) ∧
      ∃ t, step (machine 0x20400000#32 [(1, 0xF8000000#32)] []) = .next t) ∧
    (RunsInstr (machineAt 0xFFFFFFFC#32 0x20400000#32 [] []) (.str 1 0#22) ∧
      ∃ t, step (machineAt 0xFFFFFFFC#32 0x20400000#32 [] []) = .next t) :=
  ⟨⟨runs_of (w := 0x20400000#32) (by decide) (by decide) (by decide), exists_next (by decide)⟩,
    ⟨runs_of (w := 0x20400000#32) (by decide) (by decide) (by decide), exists_next (by decide)⟩⟩

/-- OnlyStopClearsRun: V-MI-16. -/
theorem witness_clears_run : ∃ t, step (machine 0xFFFFFFFF#32 [] []) = .next t ∧ (!t.run) = true := step_witness (by decide)

/-- ExceptionEnableChangesOnlyAsListed: IE goes from 0 to 1, from 1 to 0 by edi, and from 1 to 0 by an entry. -/
theorem witness_enable_changes :
    (∃ t, step (machine 0x50000000#32 [] []) = .next t ∧ t.ie = true) ∧
    (∃ t, step ((machine 0x58000000#32 [] []).setIe true) = .next t ∧ (!t.ie) = true) ∧
    (∃ t, step (interrupted true 0xBEEF#16 0x02#8) = .next t ∧ (!t.ie) = true) :=
  ⟨step_witness (by decide), step_witness (by decide), step_witness (by decide)⟩

/-- InterruptRegistersChangeOnlyAsListed: II and IPC change by ri and by an entry. -/
theorem witness_interrupt_registers :
    (∃ t, step (machine 0x88420000#32 [(1, 0x00012340#32)] []) = .next t ∧ (t.ii != 0#16 && t.ipc != 0#32) = true) ∧
    (∃ t, step (interrupted true 0xBEEF#16 0x02#8) = .next t ∧ (t.ii != 0#16 && t.ipc != 0#32) = true) :=
  ⟨step_witness (by decide), step_witness (by decide)⟩

/-- MemoryChangesOnlyByStores: a step that changes memory. -/
theorem witness_memory_changes :
    ∃ t, step (machine 0x21400008#32 [(5, 0x13572468#32)] []) = .next t ∧ (t.byte 0x10C#32 == 0x13#8) = true :=
  step_witness (by decide)

/-- AcknowledgeMarksExactlyTheAcceptedRequests: a step that accepts and one that does not. -/
theorem witness_acknowledge :
    (∃ t, step (interrupted true 0xBEEF#16 0x02#8) = .next t ∧ t.iack = true) ∧
    (∃ t, step (interrupted false 0xBEEF#16 0x02#8) = .next t ∧ (!t.iack) = true) :=
  ⟨step_witness (by decide), step_witness (by decide)⟩

/-- BootStartsAtTheResetAddress: an address that the image gives twice, the last byte of memory. -/
theorem witness_image_given_twice :
    ∃ (before after : Image), ([(0xFFFFFFFF, 1#8), (0xFFFFFFFF, 2#8), (0, 3#8)] : Image) =
      before ++ ((0xFFFFFFFF#32).toNat, 2#8) :: after ∧ ∀ c ∈ after, c.1 ≠ (0xFFFFFFFF#32).toNat :=
  ⟨[(0xFFFFFFFF, 1#8)], [(0, 3#8)], by decide, by decide⟩

/-- BootValuesTheModelChose: an address that the image does not give. -/
theorem witness_outside_image : ∀ c ∈ ([(0, 1#8)] : Image), c.1 ≠ (0xFFFFFFFF#32).toNat := by decide

/-- AssemblerRefusesWhatDoesNotFit: the first constants beyond each end, and a base register. -/
theorem witness_beyond_the_fields :
    ((-65537 : Int) < -65536) ∧ ((65535 : Int) < 65536) ∧ ((-2097153 : Int) < -2097152) ∧ ((2097151 : Int) < 2097152) ∧
    ((0 : Int) < 1) ∧ ((31 : Int) < 32) ∧ ((-1 : Int) < 0) ∧ ((5 : Int) < 6) ∧ (1 : Reg) ≠ 0 := by decide

/-- AssemblerEmitsTheEncoding, DataDirectivesPlaceBytesInOrder: the last places of memory, and the most storage from address 0. -/
theorem witness_data_directives :
    (2 ^ 32 - 8 < 2 ^ 32 ∧ (2 ^ 32 - 8) + 4 * [0#32, 1#32].length ≤ 2 ^ 32) ∧ (2 ^ 32 - 2) + 2 * [0#16].length ≤ 2 ^ 32 ∧
    (2 ^ 32 - 1) + [0#8].length ≤ 2 ^ 32 ∧ 0 + (2 ^ 32 - 1) < 2 ^ 32 ∧ 0 + 2 * (2 ^ 31 - 1) < 2 ^ 32 ∧ 0 + 4 * (2 ^ 30 - 1) < 2 ^ 32 := by
  decide

/-- DecodeOfEncodeIsTheInstruction, BytesHoldOneInstructionEach: the default encoding is sound, and so is one with another byte order, its
fields in the opposite order and its branch conditions numbered backwards. -/
def mirrored : Config :=
  { config with
    byteOrder := .littleEndian
    fields := { op := 0, ra := 5, rb := 10, rc := 15, c1 := 10, c2 := 15, c3 := 20 }
    conds := [(5, .never), (4, .always), (3, .zero), (2, .nonzero), (1, .plus), (0, .minus)] }

theorem witness_sound_encodings : config.SoundEncoding ∧ mirrored.SoundEncoding := by
  refine ⟨config_sound, ⟨?_, fun o => by cases o <;> rfl, fun k => by cases k <;> rfl, by decide, rfl⟩⟩
  constructor <;> simp [mirrored, Apart]

/-- Another encoding and byte order reach the decoder and the assembler (R6): the word of `shr r3, r1, 4` has op 26 in bits 4..0, and its
lowest byte comes first. -/
theorem test_mirrored_encoding :
    mirrored.encode (.shrConst 3 1 4#5) = 0#7 ++ 0b00100#5 ++ 0b00000#5 ++ 0b00001#5 ++ 0b00011#5 ++ 0b11010#5 ∧
    mirrored.decode (0#7 ++ 0b00100#5 ++ 0b00000#5 ++ 0b00001#5 ++ 0b00011#5 ++ 0b11010#5) = .shrConst 3 1 4#5 ∧
    (match Asm.assembleText mirrored " .org 0\n .dc 12345678H\n .dch 258".toList with
      | .ok image => image
      | .error _ => []) =
    [(0, 0x78#8), (1, 0x56#8), (2, 0x34#8), (3, 0x12#8), (4, 0x02#8), (5, 0x01#8)] := by decide

end Sys2Proof.Tests
end

section
/-! SUPPORT. O1, O7: the decoder's formats on the words of the encoder, and the round trip (30_encoding.md R62 to R75). -/

namespace Sys2Proof

/-! ## What each format of the decoder makes of a word of the encoder -/

section
variable {c : Config} (h : c.fields.Sound) (op : BitVec 5) (ra rb rc : Reg)
include h

theorem decodeBase_format1 (c2 : BitVec 17) (abs : Reg → BitVec 17 → Instr) (disp : Reg → Reg → BitVec 17 → Instr) :
    c.decodeBase (c.word op (c.format1 ra rb c2)) abs disp = if rb = 0 then abs ra c2 else disp ra rb c2 := by
  simp only [Config.decodeBase, fieldRa_format1 h, fieldRb_format1 h, fieldC2_format1 h]

theorem decodeImm_format1 (c2 : BitVec 17) (f : Reg → Reg → BitVec 17 → Instr) :
    c.decodeImm (c.word op (c.format1 ra rb c2)) f = f ra rb c2 := by
  simp only [Config.decodeImm, fieldRa_format1 h, fieldRb_format1 h, fieldC2_format1 h]

theorem decodeRel_format2 (c1 : BitVec 22) (f : Reg → BitVec 22 → Instr) :
    c.decodeRel (c.word op (c.format2 ra c1)) f = f ra c1 := by
  simp only [Config.decodeRel, fieldRa_format2 h, fieldC1_format2 h]

theorem decodeThree_format3 (c3 : BitVec 12) (f : Reg → Reg → Reg → Instr) :
    c.decodeThree (c.word op (c.format3 ra rb rc c3)) f = f ra rb rc := by
  simp only [Config.decodeThree, fieldRa_format3 h, fieldRb_format3 h, fieldRc_format3 h]

/-- A shift's word with `c3` = 0 is the register form (R85). -/
theorem decodeShift_format3 (reg : Reg → Reg → Reg → Instr) (const : Reg → Reg → BitVec 5 → Instr) :
    c.decodeShift (c.word op (c.format3 ra rb rc 0)) reg const = reg ra rb rc := by
  simp [Config.decodeShift, fieldRa_format3 h, fieldRb_format3 h, fieldRc_format3 h, fieldCount_format3 h]

theorem decodeShift_formatCount {count : BitVec 5} (hn : count ≠ 0) (reg : Reg → Reg → Reg → Instr)
    (const : Reg → Reg → BitVec 5 → Instr) :
    c.decodeShift (c.word op (c.formatCount ra rb count)) reg const = const ra rb count := by
  simp only [Config.decodeShift, Config.formatCount, fieldRa_format3 h, fieldRb_format3 h, fieldCount_format3 h, count_low,
    if_neg hn]

theorem fieldCond_formatBranch (k : BitVec 3) : c.fieldCond (c.word op (c.formatBranch ra rb rc k)) = k := by
  rw [Config.formatBranch, fieldCond_format3 h, cond_low]

end

/-! ## The branches -/

/-- The `br` row of a condition (R86); none is the reserved row. -/
def brRow (rb rc : Reg) : Option Cond → Instr
  | some .never => .brnv
  | some .always => .br rb
  | some .zero => .brzr rb rc
  | some .nonzero => .brnz rb rc
  | some .plus => .brpl rb rc
  | some .minus => .brmi rb rc
  | none => .brReservedCond

/-- The `brl` row of a condition (R86). -/
def brlRow (ra rb rc : Reg) : Option Cond → Instr
  | some .never => .brlnv ra
  | some .always => .brl ra rb
  | some .zero => .brlzr ra rb rc
  | some .nonzero => .brlnz ra rb rc
  | some .plus => .brlpl ra rb rc
  | some .minus => .brlmi ra rb rc
  | none => .brlReservedCond

theorem decodeBr_eq_brRow (c : Config) (w : Word) :
    c.decodeBr w = brRow (c.fieldRb w) (c.fieldRc w) (c.condition (c.fieldCond w)) := by
  unfold Config.decodeBr
  cases c.condition (c.fieldCond w) with
  | none => rfl
  | some k => cases k <;> rfl

theorem decodeBrl_eq_brlRow (c : Config) (w : Word) :
    c.decodeBrl w = brlRow (c.fieldRa w) (c.fieldRb w) (c.fieldRc w) (c.condition (c.fieldCond w)) := by
  unfold Config.decodeBrl
  cases c.condition (c.fieldCond w) with
  | none => rfl
  | some k => cases k <;> rfl

theorem decodeBr_formatBranch {c : Config} (h : c.fields.Sound) (op : BitVec 5) (ra rb rc : Reg) (k : BitVec 3) :
    c.decodeBr (c.word op (c.formatBranch ra rb rc k)) = brRow rb rc (c.condition k) := by
  rw [decodeBr_eq_brRow, fieldCond_formatBranch h, Config.formatBranch, fieldRb_format3 h, fieldRc_format3 h]

theorem decodeBrl_formatBranch {c : Config} (h : c.fields.Sound) (op : BitVec 5) (ra rb rc : Reg) (k : BitVec 3) :
    c.decodeBrl (c.word op (c.formatBranch ra rb rc k)) = brlRow ra rb rc (c.condition k) := by
  rw [decodeBrl_eq_brlRow, fieldCond_formatBranch h, Config.formatBranch, fieldRa_format3 h, fieldRb_format3 h,
    fieldRc_format3 h]

/-! ## The round trip -/

/-- Decoding undoes encoding under every sound encoding: the operation code selects the row, and the row's format gives each
operand back. The two side conditions of `Instr.wf` choose between the forms that share a code (R84, R85). -/
theorem decode_encode {c : Config} (h : c.SoundEncoding) {i : Instr} (hi : i.wf = true) : c.decode (c.encode i) = i := by
  have hf := h.fields
  have hreserved : c.condition 6 = none := h.reserved
  rw [Config.decode, Config.fieldOp_encode hf]
  cases i <;> simp only [Config.opcode, h.operations, Config.encode, Config.operands]
  case unusedOp7 | unusedOp18 | unusedOp19 | unusedOp25 => simp [h.unused, unusedRow]
  case ldAbs | stAbs | laAbs => rw [decodeBase_format1 hf, if_pos rfl]
  case ldDisp | stDisp | laDisp => rw [decodeBase_format1 hf, if_neg (bne_iff_ne.1 hi)]
  case addi | ori | andi => rw [decodeImm_format1 hf]
  case ldr | str | lar => rw [decodeRel_format2 hf]
  case add | sub | and | or => rw [decodeThree_format3 hf]
  case neg | not => rw [fieldRa_format3 hf, fieldRc_format3 hf]
  case svi | ri => rw [fieldRa_format3 hf, fieldRb_format3 hf]
  case shrReg | shraReg | shlReg | shcReg => rw [decodeShift_format3 hf]
  case shrConst | shraConst | shlConst | shcConst => rw [decodeShift_formatCount hf _ _ _ (bne_iff_ne.1 hi)]
  case brnv | br | brzr | brnz | brpl | brmi => rw [decodeBr_formatBranch hf, h.conditions, brRow]
  case brlnv | brl | brlzr | brlnz | brlpl | brlmi => rw [decodeBrl_formatBranch hf, h.conditions, brlRow]
  case brReservedCond => rw [decodeBr_formatBranch hf, hreserved, brRow]
  case brlReservedCond => rw [decodeBrl_formatBranch hf, hreserved, brlRow]

/-! ## Bytes (R41, R60) -/

theorem encodeBytes_head_big {c : Config} (ho : c.byteOrder = .bigEndian) (i : Instr) :
    (c.encodeBytes i).head? = some ((c.encode i).extractLsb' 24 8) := by
  rw [Config.encodeBytes, ho]; rfl

theorem encodeBytes_head_little {c : Config} (ho : c.byteOrder = .littleEndian) (i : Instr) :
    (c.encodeBytes i).head? = some ((c.encode i).extractLsb' 0 8) := by
  rw [Config.encodeBytes, ho]; rfl

/-- A word is four bytes, in either order (R41). -/
theorem bytesOfWord_length (o : ByteOrder) (w : Word) : (bytesOfWord o w).length = 4 := by cases o <;> rfl

/-- Decoding takes exactly the bytes of one instruction (R60, R80). -/
theorem decodeBytes_encodeBytes {c : Config} (h : c.SoundEncoding) {i : Instr} (hi : i.wf = true) (rest : List Byte) :
    c.decodeBytes (c.encodeBytes i ++ rest) = .ok (i, rest) := by
  rw [Config.encodeBytes, decodeBytes_bytesOfWord, decode_encode h hi]

/-- Fewer than four bytes hold no instruction (R60). -/
theorem decodeBytes_truncated (c : Config) {bytes : List Byte} (hlen : bytes.length < 4) :
    c.decodeBytes bytes = .error .truncated := by
  match bytes, hlen with
  | [], _ | [_], _ | [_, _], _ | [_, _, _], _ => rfl
  | _ :: _ :: _ :: _ :: _, hlen =>
    simp only [List.length_cons] at hlen
    omega

/-- Settles O1: the round trip `decode_encode`, under every sound encoding and under the default, which is sound. -/
theorem decodeOfEncodeIsTheInstruction : Obligations.DecodeOfEncodeIsTheInstruction :=
  ⟨fun _ h _ hi => decode_encode h hi, fun _ hi => decode_encode config_sound hi⟩

/-- Settles O7: the round trip carried over to bytes; a list shorter than four bytes has no first four. -/
theorem bytesHoldOneInstructionEach : Obligations.BytesHoldOneInstructionEach :=
  ⟨fun _ i rest h hi => ⟨bytesOfWord_length _ _, fun ho => encodeBytes_head_big ho i, fun ho => encodeBytes_head_little ho i,
    decodeBytes_encodeBytes h hi rest⟩, fun c _ hlen => decodeBytes_truncated c hlen⟩

end Sys2Proof
end

section
/-! SUPPORT. O58, O60: operands that fit their fields, what a statement places, and a program of one `.org` and some statements
(30_encoding.md R82 to R88). -/

namespace Sys2Proof.Asm

open Sys2Proof.Machine

/-! ## Constants that fit (R71 to R73, R82, R85, R87) -/

theorem evalValue_num (tab : SymbolTable) (n : Int) : evalValue tab (.num n) = .ok n := rfl

/-- The signed value of a field fits the field and gives it back. -/
theorem fitSigned_toInt {w : Nat} (v : BitVec w) : fitSigned w v.toInt = .ok v := by
  rw [fitSigned, if_pos ⟨v.le_toInt, v.toInt_lt⟩, BitVec.ofInt_toInt]

/-- The unsigned value of a datum fits and gives it back. -/
theorem fitData_toNat {w : Nat} (v : BitVec w) : fitData w v.toNat = .ok v := by
  have hlow : -(2 ^ (w - 1) : Int) ≤ v.toNat := by
    have : (0 : Int) ≤ 2 ^ (w - 1) := by positivity
    omega
  have hhigh : (v.toNat : Int) < 2 ^ w := by exact_mod_cast v.isLt
  rw [fitData, if_pos ⟨hlow, hhigh⟩, BitVec.ofInt_natCast, BitVec.ofNat_toNat, BitVec.setWidth_eq]

/-- A count that is not 0 is 1 to 31. -/
theorem fitCount_toNat {n : BitVec 5} (hn : n ≠ 0) : fitCount n.toNat = .ok n := by
  have hrange : 1 ≤ (n.toNat : Int) ∧ (n.toNat : Int) ≤ 31 := by
    have : n.toNat ≠ 0 := fun h0 => hn (BitVec.eq_of_toNat_eq h0)
    omega
  rw [fitCount, if_pos hrange, BitVec.ofInt_natCast, BitVec.ofNat_toNat, BitVec.setWidth_eq]

/-! ## The word of a line (R83) -/

section
variable (c : Config) (tab : SymbolTable) (ra rb : Reg)

theorem baseForm_abs (abs : Reg → BitVec 17 → Instr) (disp : Reg → Reg → BitVec 17 → Instr) (c2 : BitVec 17) :
    baseForm c tab abs disp [.reg ra, .value (.num c2.toInt)] = .ok (c.encode (abs ra c2)) := by
  simp [baseForm, evalValue_num, fitSigned_toInt, bind, Except.bind, Except.map]

theorem baseForm_disp (abs : Reg → BitVec 17 → Instr) (disp : Reg → Reg → BitVec 17 → Instr) (c2 : BitVec 17) (hb : rb ≠ 0) :
    baseForm c tab abs disp [.reg ra, .based (.num c2.toInt) rb] = .ok (c.encode (disp ra rb c2)) := by
  simp [baseForm, evalValue_num, fitSigned_toInt, hb, bind, Except.bind, Except.map]

theorem relForm_num (f : Reg → BitVec 22 → Instr) (c1 : BitVec 22) :
    relForm c tab f [.reg ra, .value (.num c1.toInt)] = .ok (c.encode (f ra c1)) := by
  simp [relForm, evalValue_num, fitSigned_toInt, bind, Except.bind, Except.map]

theorem immForm_num (f : Reg → Reg → BitVec 17 → Instr) (c2 : BitVec 17) :
    immForm c tab f [.reg ra, .reg rb, .value (.num c2.toInt)] = .ok (c.encode (f ra rb c2)) := by
  simp [immForm, evalValue_num, fitSigned_toInt, bind, Except.bind, Except.map]

theorem shiftForm_count (reg : Reg → Reg → Reg → Instr) (const : Reg → Reg → BitVec 5 → Instr) {n : BitVec 5} (hn : n ≠ 0) :
    shiftForm c tab reg const [.reg ra, .reg rb, .value (.num n.toNat)] = .ok (c.encode (const ra rb n)) := by
  simp [shiftForm, evalValue_num, fitCount_toNat hn, bind, Except.bind, Except.map]

end

/-- The line of a well-formed instruction assembles to its encoding, under any symbols: its constants are numbers that fit their
fields, and the side conditions of `Instr.wf` are those of R84 and R85. -/
theorem assembleWord_lineOf (c : Config) (tab : SymbolTable) {i : Instr} {m : Mnemonic} {ops : List Operand} (hi : i.wf = true)
    (hline : lineOf i = some (m, ops)) : assembleWord c tab m ops = .ok (c.encode i) := by
  cases i <;> cases hline
  case ldAbs | stAbs | laAbs => rw [assembleWord, baseForm_abs]
  case ldDisp | stDisp | laDisp => rw [assembleWord, baseForm_disp _ _ _ _ _ _ _ (bne_iff_ne.1 hi)]
  case addi | ori | andi => exact immForm_num ..
  case ldr | str | lar => exact relForm_num ..
  case shrConst | shraConst | shlConst | shcConst => rw [assembleWord, shiftForm_count _ _ _ _ _ _ (bne_iff_ne.1 hi)]
  case add | sub | neg | or | and | not | shrReg | shraReg | shlReg | shcReg => rfl
  case brnv | br | brzr | brnz | brpl | brmi | brlnv | brl | brlzr | brlnz | brlpl | brlmi => rfl
  case nop | stop | een | edi | rfi | svi | ri => rfl

/-! ## What one statement places, no symbol being defined (R87, R88) -/

/-- The statement is neither `.org` nor `.equ`, advances the location counter by `size` and places `bytes`. -/
structure Places (c : Config) (st : Stmt) (size : Nat) (bytes : List Byte) : Prop where
  notOrg : ∀ v, st ≠ .org v
  notEqu : ∀ v, st ≠ .equ v
  size_eq : st.size [] = .ok size
  bytes_eq : st.bytes c [] = .ok bytes

theorem places_machine (c : Config) {m : Mnemonic} {ops : List Operand} {w : Word} (h : assembleWord c [] m ops = .ok w) :
    Places c (.machine m ops) 4 (bytesOfWord c.byteOrder w) where
  notOrg := nofun
  notEqu := nofun
  size_eq := rfl
  bytes_eq := by rw [Stmt.bytes, h]; rfl

theorem mapAll_map_ok {α β γ : Type} {f : β → Except AsmError γ} {g : α → β} {r : α → γ} (h : ∀ x, f (g x) = .ok (r x))
    (xs : List α) : mapAll f (xs.map g) = .ok (xs.map r) := by
  induction xs with
  | nil => rfl
  | cons x rest ih => rw [List.map_cons, mapAll, h, ih]; rfl

/-- The data of a directive, each value written unsigned. -/
theorem dataValues_toNat (o : ByteOrder) (tab : SymbolTable) (n : Nat) (vs : List (BitVec (8 * n))) :
    dataValues o tab n (vs.map fun v => .num v.toNat) = .ok (vs.flatMap (dataBytes o n)) := by
  rw [dataValues, mapAll_map_ok (r := dataBytes o n), List.flatMap_def]
  · rfl
  · intro v
    simp [evalValue_num, fitData_toNat, bind, Except.bind, Except.map]

theorem dataBytes_word (o : ByteOrder) (w : Word) :
    dataBytes o 4 w = o.arrange [w.extractLsb' 24 8, w.extractLsb' 16 8, w.extractLsb' 8 8, w.extractLsb' 0 8] := rfl

theorem dataBytes_half (o : ByteOrder) (h : Half) : dataBytes o 2 h = o.arrange [h.extractLsb' 8 8, h.extractLsb' 0 8] := rfl

/-- One byte has no order. -/
theorem dataBytes_byte (o : ByteOrder) (b : Byte) : dataBytes o 1 b = [b] := by
  have hb : dataBytes o 1 b = o.arrange [b.extractLsb' 0 8] := rfl
  rw [hb, extract_all]
  cases o <;> rfl

theorem places_dc (c : Config) (ws : List Word) :
    Places c (.dc (ws.map fun w => .num w.toNat)) (4 * ws.length) (ws.flatMap fun w => c.byteOrder.arrange
      [w.extractLsb' 24 8, w.extractLsb' 16 8, w.extractLsb' 8 8, w.extractLsb' 0 8]) where
  notOrg := nofun
  notEqu := nofun
  size_eq := by rw [Stmt.size, List.length_map]
  bytes_eq := dataValues_toNat c.byteOrder [] 4 ws

theorem places_dch (c : Config) (hs : List Half) :
    Places c (.dch (hs.map fun h => .num h.toNat)) (2 * hs.length)
      (hs.flatMap fun h => c.byteOrder.arrange [h.extractLsb' 8 8, h.extractLsb' 0 8]) where
  notOrg := nofun
  notEqu := nofun
  size_eq := by rw [Stmt.size, List.length_map]
  bytes_eq := dataValues_toNat c.byteOrder [] 2 hs

theorem places_dcb (c : Config) (bs : List Byte) : Places c (.dcb (bs.map fun v => .num v.toNat)) bs.length bs where
  notOrg := nofun
  notEqu := nofun
  size_eq := by rw [Stmt.size, List.length_map]
  bytes_eq := by
    refine (dataValues_toNat c.byteOrder [] 1 bs).trans ?_
    rw [funext (dataBytes_byte c.byteOrder), List.flatMap_singleton']

theorem places_db (c : Config) (n : Nat) : Places c (.db (.num n)) n [] := ⟨nofun, nofun, rfl, rfl⟩
theorem places_dh (c : Config) (n : Nat) : Places c (.dh (.num n)) (2 * n) [] := ⟨nofun, nofun, rfl, rfl⟩
theorem places_dw (c : Config) (n : Nat) : Places c (.dw (.num n)) (4 * n) [] := ⟨nofun, nofun, rfl, rfl⟩

/-! ## Programs of one `.org` and lines without labels (R88) -/

theorem place_eq_zipIdx (a : Nat) (bytes : List Byte) : place a bytes = (bytes.zipIdx a).map Prod.swap := by
  induction bytes generalizing a with
  | nil => rfl
  | cons b rest ih => rw [place, ih, List.zipIdx_cons, List.map_cons, Prod.swap_prod_mk]

/-- The first pass over a line with no label (log entry 21: `.equ` would need one). -/
theorem symbols_unlabelled (loc : Option Nat) (tab : SymbolTable) {st : Stmt} (hst : ∀ v, st ≠ .equ v) (rest : List Line) :
    symbols loc tab (⟨none, some st⟩ :: rest) =
      nextLocation tab loc (some st) >>= fun loc' => symbols (some loc') tab rest := by
  cases st with
  | equ v => exact absurd rfl (hst v)
  | machine | org | dc | dcb | dch | db | dh | dw => rfl

section
variable {c : Config} {st : Stmt} {size : Nat} {bytes : List Byte} (h : Places c st size bytes) {a : Nat}
include h

theorem nextLocation_of_places (hfit : a + size ≤ 2 ^ 32) : nextLocation [] (some a) (some st) = .ok (a + size) := by
  have hadvance : nextLocation [] (some a) (some st) = st.size [] >>= advance a := by
    rw [nextLocation]
    · rfl
    · exact h.notOrg
  rw [hadvance, h.size_eq]
  exact if_pos hfit

theorem symbols_of_places (hfit : a + size ≤ 2 ^ 32) (rest : List Line) :
    symbols (some a) [] (⟨none, some st⟩ :: rest) = symbols (some (a + size)) [] rest := by
  rw [symbols_unlabelled _ _ h.notEqu, nextLocation_of_places h hfit]
  rfl

theorem image_of_places (hfit : a + size ≤ 2 ^ 32) (rest : List Line) :
    image c [] (some a) (⟨none, some st⟩ :: rest) = (image c [] (some (a + size)) rest).map (place a bytes ++ ·) := by
  rw [image]
  simp only [h.bytes_eq, nextLocation_of_places h hfit, bind, Except.bind]

end

/-- The lines after an `.org` begin at its value. -/
theorem assemble_org (c : Config) {a : Nat} (ha : a < 2 ^ 32) {lines : List Line} (hsym : symbols (some a) [] lines = .ok []) :
    assemble c (⟨none, some (.org (.num a))⟩ :: lines) = image c [] (some a) lines := by
  have hnext (loc : Option Nat) : nextLocation [] loc (some (.org (.num a))) = .ok a := if_pos ha
  have hsymbols : symbols none [] (⟨none, some (.org (.num a))⟩ :: lines) = .ok [] := by
    rw [symbols_unlabelled none [] (st := .org (.num a)) nofun, hnext]
    exact hsym
  have himage : image c [] none (⟨none, some (.org (.num a))⟩ :: lines) = (image c [] (some a) lines).map ([] ++ ·) := by
    simp [image, Stmt.bytes, hnext, bind, Except.bind]
  rw [assemble, hsymbols]
  refine himage.trans ?_
  cases image c [] (some a) lines <;> rfl

/-- `.org` and one statement: its bytes, one after the other. -/
theorem assemble_org_one {c : Config} {a : Nat} (ha : a < 2 ^ 32) {st : Stmt} {size : Nat} {bytes : List Byte}
    (h : Places c st size bytes) (hfit : a + size ≤ 2 ^ 32) :
    assemble c [⟨none, some (.org (.num a))⟩, ⟨none, some st⟩] = .ok ((bytes.zipIdx a).map Prod.swap) := by
  rw [assemble_org c ha (symbols_of_places h hfit []), image_of_places h hfit, ← place_eq_zipIdx]
  exact congrArg _ (List.append_nil _)

/-- `.org`, storage of `size` bytes and one byte of data: the byte stands `size` further. -/
theorem assemble_org_reserve_byte {c : Config} {a : Nat} {st : Stmt} {size : Nat} (h : Places c st size []) (b : Byte)
    (hfit : a + size < 2 ^ 32) :
    assemble c [⟨none, some (.org (.num a))⟩, ⟨none, some st⟩, ⟨none, some (.dcb [.num b.toNat])⟩] = .ok [(a + size, b)] := by
  have hbyte := places_dcb c [b]
  have hroom : a + size + [b].length ≤ 2 ^ 32 := hfit
  have hsym : symbols (some a) [] [⟨none, some st⟩, ⟨none, some (.dcb [.num b.toNat])⟩] = .ok [] := by
    rw [symbols_of_places h hfit.le]
    exact symbols_of_places hbyte hroom []
  rw [assemble_org c (by omega) hsym, image_of_places h hfit.le]
  exact congrArg _ (image_of_places hbyte hroom [])

/-- Settles O58: the word by `assembleWord_lineOf`, its bytes by `assemble_org_one`. -/
theorem assemblerEmitsTheEncoding : Obligations.AssemblerEmitsTheEncoding := fun c tab _ _ _ _ hi hline =>
  ⟨assembleWord_lineOf c tab hi hline, fun hfit =>
    assemble_org_one (by omega) (places_machine c (assembleWord_lineOf c [] hi hline)) hfit⟩

/-- Settles O60: each directive is a `Places` fact, alone after `.org` or before one more byte. -/
theorem dataDirectivesPlaceBytesInOrder : Obligations.DataDirectivesPlaceBytesInOrder := fun c _ ws hs bs b n ha =>
  ⟨assemble_org_one ha (places_dc c ws), assemble_org_one ha (places_dch c hs), assemble_org_one ha (places_dcb c bs),
    assemble_org_reserve_byte (places_db c n) b, assemble_org_reserve_byte (places_dh c n) b,
    assemble_org_reserve_byte (places_dw c n) b⟩

end Sys2Proof.Asm
end

section
/-! SUPPORT. O30, O38, O47: the links of `brl`, what `svi` saves, and the faults of a step. -/

namespace Sys2Proof.Machine

/-! ## brl (43_branch.md R160, R162) -/

/-- A word with operation code 9 decodes as its condition field has it. -/
theorem decodesAsCond_brl {k : BitVec 3} {f : Word → Instr}
    (h : ∀ w, fieldCond w = k → config.decodeBrl w = f w) : DecodesAsCond 9#5 k f := fun w hop hcond =>
  (decodeWord_of hop).trans (h w hcond)

/-- A branch with link completes with the link saved; it goes to the old R[rb] exactly when the condition holds. -/
theorem branchLinkIf_branchesTo {k : Cond} {taken : Prop} (ra rb rc : Reg) (s : State) (hk : k.holds (s.reg rc) = true ↔ taken) :
    (branchLinkIf k ra rb rc s).reg ra = s.pc ∧ BranchesTo taken (s.reg rb) [ra] s (branchLinkIf k ra rb rc s) := by
  refine ⟨State.reg_setReg_same .., fun ht => ?_, fun ht => ?_, fun i hi => ?_, fun a => ?_, ?_, ?_⟩
  · simp [branchLinkIf, hk.2 ht]
  · simp [branchLinkIf, mt hk.1 ht]
  · simp [branchLinkIf, State.reg_setReg_ne _ _ (Ne.symm (List.ne_of_not_mem_cons hi))]
  · simp [branchLinkIf, State.byte]
  · simp [branchLinkIf, KeepsControl]
  · simp [branchLinkIf, KeepsInterface]

theorem holds_zero (v : Word) : Cond.zero.holds v = true ↔ v.toNat = 0 := by
  simp [Cond.holds, ← BitVec.toNat_inj]

theorem holds_nonzero (v : Word) : Cond.nonzero.holds v = true ↔ v.toNat ≠ 0 := by
  simp [Cond.holds, ← BitVec.toNat_inj]

/-- Plus includes zero (90_conflicts.md C1). -/
theorem holds_plus (v : Word) : Cond.plus.holds v = true ↔ 0 ≤ v.toInt := by
  simp [Cond.holds, BitVec.msb_eq_toInt]

theorem holds_minus (v : Word) : Cond.minus.holds v = true ↔ v.toInt < 0 := by
  simp [Cond.holds, BitVec.msb_eq_toInt]

/-- Settles O30: every `brl` form is `branchLinkIf` of its condition; `never` and `always` hold whatever R[rc] is, so that their
forms, which fix the fields they do not use, are that too. -/
theorem branchAndLinkAlwaysSavesPc : Obligations.BranchAndLinkAlwaysSavesPc := by
  refine ⟨decodesAsCond_brl fun _ => decodeBrl_of, decodesAsCond_brl fun _ => decodeBrl_of,
    decodesAsCond_brl fun _ => decodeBrl_of, decodesAsCond_brl fun _ => decodeBrl_of,
    decodesAsCond_brl fun _ => decodeBrl_of, decodesAsCond_brl fun _ => decodeBrl_of, fun s ra rb rc => ?_⟩
  refine ⟨⟨_, rfl, ?_⟩, ⟨_, rfl, ?_⟩, ⟨_, rfl, ?_⟩, ⟨_, rfl, ?_⟩, ⟨_, rfl, ?_⟩, ⟨_, rfl, ?_⟩⟩
  · exact branchLinkIf_branchesTo ra rb rc s (k := .never) (by simp [Cond.holds])
  · exact branchLinkIf_branchesTo ra rb rc s (k := .always) (by simp [Cond.holds])
  · exact branchLinkIf_branchesTo ra rb rc s (holds_zero _)
  · exact branchLinkIf_branchesTo ra rb rc s (holds_nonzero _)
  · exact branchLinkIf_branchesTo ra rb rc s (holds_plus _)
  · exact branchLinkIf_branchesTo ra rb rc s (holds_minus _)

/-! ## svi (44_miscellaneous.md R195) -/

/-- What `svi` leaves in its first register, the second being another one. -/
theorem saveInterruptState_reg_low (c : Config) (s : State) {ra rb : Reg} (hne : ra ≠ rb) :
    (saveInterruptState c ra rb s).reg ra = sviUpperHalf c ra s ++ s.ii := by
  simp [saveInterruptState, hne.symm]

theorem saveInterruptState_reg_ipc (c : Config) (s : State) (ra rb : Reg) : (saveInterruptState c ra rb s).reg rb = s.ipc := by
  simp [saveInterruptState]

/-- Settles O38. -/
theorem saveUpperHalfFollowsTheParameter : Obligations.SaveUpperHalfFollowsTheParameter := by
  intro c s ra rb hne
  rw [saveInterruptState_reg_low c s hne, extract_append_high]
  refine ⟨?_, saveInterruptState_reg_ipc c s ra rb, fun hu => ?_, fun hu => ?_⟩
  · rw [extract_append_low _ _ (by omega), extract_all]
  · rw [sviUpperHalf, hu]
  · rw [sviUpperHalf, hu]; rfl

/-! ## From an instruction back to its word (30_encoding.md R74, R78) -/

/-- The default operation-code map gives no operation two codes. -/
theorem code_of_operation : ∀ op : BitVec 5, ∀ o ∈ config.operation op, config.code o = op := by decide

theorem unused_of_operation_none : ∀ op : BitVec 5, config.operation op = none → op ∈ [7#5, 18#5, 19#5, 25#5] := by decide

theorem opcode_unusedRow : ∀ op ∈ [7#5, 18#5, 19#5, 25#5], opcode (unusedRow op) = op := by decide

theorem opcode_brRow (rb rc : Reg) (k : Option Cond) : opcode (brRow rb rc k) = config.code .br := by
  rcases k with _ | k
  · rfl
  · cases k <;> rfl

theorem opcode_brlRow (ra rb rc : Reg) (k : Option Cond) : opcode (brlRow ra rb rc k) = config.code .brl := by
  rcases k with _ | k
  · rfl
  · cases k <;> rfl

/-- The operation code of an instruction is the `op` field of every word it was decoded from. -/
theorem opcode_decodeWord (w : Word) : opcode (decodeWord w) = fieldOp w := by
  rw [decodeWord_of rfl]
  cases ho : config.operation (fieldOp w) with
  | none => exact opcode_unusedRow _ (unused_of_operation_none _ ho)
  | some o =>
    refine Eq.trans ?_ (code_of_operation _ o ho)
    cases o
    case br => rw [decodeBr_eq_brRow, opcode_brRow]
    case brl => rw [decodeBrl_eq_brlRow, opcode_brlRow]
    case ld | st | la => simp only [Config.decodeBase]; split <;> rfl
    case shr | shra | shl | shc => simp only [Config.decodeShift]; split <;> rfl
    case nop | ldr | str | lar | een | edi | add | addi | sub | neg | svi | ri | and | andi | or | ori | not | rfi | stop => rfl

theorem fieldOp_of_decodeWord {w : Word} {i : Instr} (h : decodeWord w = i) : fieldOp w = opcode i := by
  rw [← h, opcode_decodeWord]

/-- The condition numbers that name no condition. -/
theorem reserved_of_condition_none : ∀ k : BitVec 3, config.condition k = none → 6 ≤ k.toNat := by decide

theorem condition_none_of_brRow {rb rc : Reg} {k : Option Cond} (h : brRow rb rc k = .brReservedCond) : k = none := by
  rcases k with _ | k
  · rfl
  · cases k <;> cases h

theorem condition_none_of_brlRow {ra rb rc : Reg} {k : Option Cond} (h : brlRow ra rb rc k = .brlReservedCond) : k = none := by
  rcases k with _ | k
  · rfl
  · cases k <;> cases h

/-- A word of a reserved row has one of the two unused conditions (R78). -/
theorem reserved_fieldCond {w : Word} (h : decodeWord w = .brReservedCond ∨ decodeWord w = .brlReservedCond) :
    6 ≤ (fieldCond w).toNat := by
  rcases h with h | h
  · have hop : fieldOp w = 8#5 := fieldOp_of_decodeWord h
    rw [decodeWord_of hop] at h
    exact reserved_of_condition_none _ (condition_none_of_brRow ((decodeBr_eq_brRow config w).symm.trans h))
  · have hop : fieldOp w = 9#5 := fieldOp_of_decodeWord h
    rw [decodeWord_of hop] at h
    exact reserved_of_condition_none _ (condition_none_of_brlRow ((decodeBrl_eq_brlRow config w).symm.trans h))

/-- The register fields of a word of `svi`. -/
theorem fields_of_svi {w : Word} {ra rb : Reg} (h : decodeWord w = .svi ra rb) : fieldRa w = ra ∧ fieldRb w = rb := by
  have hop : fieldOp w = 16#5 := fieldOp_of_decodeWord h
  rw [decodeWord_of hop] at h
  exact Instr.svi.inj h

/-! ## The faults of an instruction (60_exceptions.md R212) -/

/-- The instruction accesses the word of memory at the address (40_load_store.md R102 to R105). -/
inductive AccessesWordAt (s : State) : Instr → Word → Prop where
  | ldAbs (ra : Reg) (c2 : BitVec 17) : AccessesWordAt s (.ldAbs ra c2) (absAddress s c2)
  | ldDisp (ra rb : Reg) (c2 : BitVec 17) : AccessesWordAt s (.ldDisp ra rb c2) (dispAddress s rb c2)
  | ldr (ra : Reg) (c1 : BitVec 22) : AccessesWordAt s (.ldr ra c1) (relAddress s c1)
  | stAbs (ra : Reg) (c2 : BitVec 17) : AccessesWordAt s (.stAbs ra c2) (absAddress s c2)
  | stDisp (ra rb : Reg) (c2 : BitVec 17) : AccessesWordAt s (.stDisp ra rb c2) (dispAddress s rb c2)
  | str (ra : Reg) (c1 : BitVec 22) : AccessesWordAt s (.str ra c1) (relAddress s c1)

/-- The faults that an instruction can stop with, each in its situation of R212 and with the state the instruction was given. -/
inductive InstrFault (s : State) : Instr → Fault → Prop where
  | misalignedData {i : Instr} {a : Word} (haccess : AccessesWordAt s i a) (ha : a.toNat % 4 ≠ 0) :
      InstrFault s i (.misalignedData a s)
  | illegalOpcode {i : Instr} (hi : i ∈ [.unusedOp7, .unusedOp18, .unusedOp19, .unusedOp25]) (w : Word) :
      InstrFault s i (.illegalOpcode w s)
  | reservedCondition {i : Instr} (hi : i = .brReservedCond ∨ i = .brlReservedCond) (w : Word) :
      InstrFault s i (.reservedCondition w s)
  | conflictingWrite (ra : Reg) (w : Word) : InstrFault s (.svi ra ra) (.conflictingWrite w s)

/-- The instruction completes, or stops with a fault of R212. -/
def CompletesOrFaults (i : Instr) (s : State) : Prop :=
  (∃ t, exec i s = .next t) ∨ ∃ e, exec i s = .fault e ∧ InstrFault s i e

/-- An access completes at a multiple of 4 and else stops. -/
theorem access_completesOrFaults {i : Instr} {s t : State} {a : Word} (haccess : AccessesWordAt s i a)
    (hexec : exec i s = if aligned a = true then .next t else .fault (.misalignedData a s)) : CompletesOrFaults i s := by
  by_cases ha : aligned a = true
  · exact .inl ⟨t, hexec.trans (if_pos ha)⟩
  · exact .inr ⟨_, hexec.trans (if_neg ha), .misalignedData haccess (mt (aligned_iff a).2 ha)⟩

/-- What an instruction can do: complete, or stop with a fault of R212; never a refusal. -/
theorem exec_completesOrFaults (i : Instr) (s : State) : CompletesOrFaults i s := by
  cases i
  case ldAbs ra c2 => exact access_completesOrFaults (.ldAbs ra c2) (loadInto_default ra _ s)
  case ldDisp ra rb c2 => exact access_completesOrFaults (.ldDisp ra rb c2) (loadInto_default ra _ s)
  case ldr ra c1 => exact access_completesOrFaults (.ldr ra c1) (loadInto_default ra _ s)
  case stAbs ra c2 => exact access_completesOrFaults (.stAbs ra c2) (storeFrom_default ra _ s)
  case stDisp ra rb c2 => exact access_completesOrFaults (.stDisp ra rb c2) (storeFrom_default ra _ s)
  case str ra c1 => exact access_completesOrFaults (.str ra c1) (storeFrom_default ra _ s)
  case unusedOp7 | unusedOp18 | unusedOp19 | unusedOp25 => exact .inr ⟨_, rfl, .illegalOpcode (by simp) _⟩
  case brReservedCond => exact .inr ⟨_, rfl, .reservedCondition (.inl rfl) _⟩
  case brlReservedCond => exact .inr ⟨_, rfl, .reservedCondition (.inr rfl) _⟩
  case svi ra rb =>
    by_cases hne : ra = rb
    · subst hne
      exact .inr ⟨_, if_pos rfl, .conflictingWrite ra _⟩
    · exact .inl ⟨_, if_neg hne⟩
  case laAbs | laDisp | lar => exact .inl ⟨_, rfl⟩
  case add | addi | sub | neg | or | ori | and | andi | not => exact .inl ⟨_, rfl⟩
  case shrReg | shrConst | shraReg | shraConst | shlReg | shlConst | shcReg | shcConst => exact .inl ⟨_, rfl⟩
  case brnv | br | brzr | brnz | brpl | brmi | brlnv | brl | brlzr | brlnz | brlpl | brlmi => exact .inl ⟨_, rfl⟩
  case nop | stop | een | edi | rfi | ri => exact .inl ⟨_, rfl⟩

/-! ## The faults of a step (60_exceptions.md R212, R214, R218) -/

/-- How a step can stop: the halt, the fetch at a misaligned PC, or a fault of the instruction fetched, which gets its word. -/
inductive StepFault (s : State) : Fault → Prop where
  | halted (hrun : s.run = false) : StepFault s .halted
  | misalignedFetch (hexec : Executes s) (hpc : s.pc.toNat % 4 ≠ 0) : StepFault s (.misalignedFetch s.pc s.passBoundary)
  | instr {w : Word} {e : Fault} (hexec : Executes s) (hfetch : fetch config s = .next w)
      (hfault : InstrFault (afterFetch s) (decodeWord w) e) : StepFault s (e.withWord w)

/-- What a step can do, said once for faults and refusals. -/
theorem step_completes_or_faults (s : State) : (∃ t, step s = .next t) ∨ ∃ e, step s = .fault e ∧ StepFault s e := by
  rcases boundary_cases s with hrun | ⟨q, hq⟩ | hexec
  · exact .inr ⟨_, step_halted hrun, .halted hrun⟩
  · exact .inl ⟨_, step_accepts hq⟩
  · by_cases hpc : aligned s.pc = true
    · have hfetch := (fetch_default s).trans (if_pos hpc)
      rw [step_fetched hexec hfetch]
      rcases exec_completesOrFaults (decodeWord (readWord .bigEndian s.mem s.pc)) (afterFetch s) with ⟨t, ht⟩ | ⟨e, he, hfault⟩
      · exact .inl ⟨t, by rw [ht, recordWord_next]⟩
      · exact .inr ⟨_, by rw [he, recordWord_fault], .instr hexec hfetch hfault⟩
    · have hfetch := (fetch_default s.passBoundary).trans (if_neg hpc)
      refine .inr ⟨_, ?_, .misalignedFetch hexec (mt (aligned_iff s.pc).2 hpc)⟩
      rw [step_executes hexec, runInstruction, hfetch]
      rfl

theorem step_ne_refused (s : State) (e : Refusal) : step s ≠ .refused e := by
  intro h
  rcases step_completes_or_faults s with ⟨t, ht⟩ | ⟨f, hf, -⟩
  · cases h.symm.trans ht
  · cases h.symm.trans hf

theorem stepFault_of_step {s : State} {e : Fault} (h : step s = .fault e) : StepFault s e := by
  rcases step_completes_or_faults s with ⟨t, ht⟩ | ⟨f, hf, hfault⟩
  · cases h.symm.trans ht
  · cases h.symm.trans hf
    exact hfault

theorem leavesAll_passBoundary (s : State) : LeavesAll s s.passBoundary :=
  ⟨rfl, fun _ _ => rfl, fun _ => rfl, rfl, rfl, rfl, rfl⟩

theorem leavesAllButPc_afterFetch (s : State) : LeavesAllButPc s (afterFetch s) :=
  ⟨rfl, fun _ _ => rfl, fun _ => rfl, rfl, rfl, rfl, rfl⟩

/-- The word of an access, on the state after the fetch, in the terms of the statement: only the relative forms see the
advanced PC. -/
theorem runs_of_accessesWordAt {s : State} {i : Instr} {a : Word} (h : AccessesWordAt (afterFetch s) i a) (hruns : RunsInstr s i) :
    ∃ ra rb c2 c1,
      ((RunsInstr s (.ldAbs ra c2) ∨ RunsInstr s (.stAbs ra c2)) ∧ a = absAddress s c2) ∨
      ((RunsInstr s (.ldDisp ra rb c2) ∨ RunsInstr s (.stDisp ra rb c2)) ∧ a = dispAddress s rb c2) ∨
      ((RunsInstr s (.ldr ra c1) ∨ RunsInstr s (.str ra c1)) ∧ a = relAddress (afterFetch s) c1) := by
  cases h with
  | ldAbs ra c2 => exact ⟨ra, 0, c2, 0, .inl ⟨.inl hruns, rfl⟩⟩
  | stAbs ra c2 => exact ⟨ra, 0, c2, 0, .inl ⟨.inr hruns, rfl⟩⟩
  | ldDisp ra rb c2 => exact ⟨ra, rb, c2, 0, .inr (.inl ⟨.inl hruns, rfl⟩)⟩
  | stDisp ra rb c2 => exact ⟨ra, rb, c2, 0, .inr (.inl ⟨.inr hruns, rfl⟩)⟩
  | ldr ra c1 => exact ⟨ra, 0, 0, c1, .inr (.inr ⟨.inl hruns, rfl⟩)⟩
  | str ra c1 => exact ⟨ra, 0, 0, c1, .inr (.inr ⟨.inr hruns, rfl⟩)⟩

/-- Settles O47: a case for each way a step can stop, `stepFault_of_step`; the fields of the word follow from its decoding. -/
theorem stepFaultsAreThoseOfTheSpec : Obligations.StepFaultsAreThoseOfTheSpec := by
  refine ⟨step_ne_refused, fun s e h => ?_⟩
  have hleft := leavesAllButPc_afterFetch s
  cases stepFault_of_step h with
  | halted hrun => exact hrun
  | misalignedFetch hexec hpc => exact ⟨hexec, rfl, hpc, leavesAll_passBoundary s⟩
  | @instr w e hexec hfetch hfault =>
    generalize hdecode : decodeWord w = i at hfault
    cases hfault with
    | misalignedData haccess ha => exact ⟨ha, hleft, runs_of_accessesWordAt haccess ⟨hexec, w, hfetch, hdecode⟩⟩
    | illegalOpcode hi _ =>
      have hop : opcode i ∈ [7#5, 18#5, 19#5, 25#5] := by
        simp only [List.mem_cons, List.not_mem_nil, or_false] at hi
        rcases hi with rfl | rfl | rfl | rfl <;> decide
      exact ⟨hexec, hfetch, fieldOp_of_decodeWord hdecode ▸ hop, hleft⟩
    | reservedCondition hi _ =>
      have hop : opcode i ∈ [8#5, 9#5] := by rcases hi with rfl | rfl <;> decide
      exact ⟨hexec, hfetch, fieldOp_of_decodeWord hdecode ▸ hop, reserved_fieldCond (hdecode ▸ hi), hleft⟩
    | conflictingWrite ra _ =>
      obtain ⟨hra, hrb⟩ := fields_of_svi hdecode
      exact ⟨hexec, hfetch, fieldOp_of_decodeWord hdecode, hra.trans hrb.symm, hleft⟩

end Sys2Proof.Machine
end

section
/-! SUPPORT. O12, O51 to O54, O49, O55: what an instruction that completes does to the state it is given, said once, and what every
step keeps. -/

namespace Sys2Proof.Machine

/-! ## What `svi`, `ri` and a branch with link leave of the fields they do not write -/

@[simp] theorem saveInterruptState_pc (c : Config) (ra rb : Reg) (s : State) : (saveInterruptState c ra rb s).pc = s.pc := rfl
@[simp] theorem saveInterruptState_run (c : Config) (ra rb : Reg) (s : State) : (saveInterruptState c ra rb s).run = s.run := rfl
@[simp] theorem saveInterruptState_ie (c : Config) (ra rb : Reg) (s : State) : (saveInterruptState c ra rb s).ie = s.ie := rfl
@[simp] theorem saveInterruptState_ipc (c : Config) (ra rb : Reg) (s : State) : (saveInterruptState c ra rb s).ipc = s.ipc := rfl
@[simp] theorem saveInterruptState_ii (c : Config) (ra rb : Reg) (s : State) : (saveInterruptState c ra rb s).ii = s.ii := rfl
@[simp] theorem saveInterruptState_mem (c : Config) (ra rb : Reg) (s : State) : (saveInterruptState c ra rb s).mem = s.mem := rfl
@[simp] theorem saveInterruptState_iack (c : Config) (ra rb : Reg) (s : State) : (saveInterruptState c ra rb s).iack = s.iack := rfl

@[simp] theorem restoreInterruptState_pc (ra rb : Reg) (s : State) : (restoreInterruptState ra rb s).pc = s.pc := rfl
@[simp] theorem restoreInterruptState_run (ra rb : Reg) (s : State) : (restoreInterruptState ra rb s).run = s.run := rfl
@[simp] theorem restoreInterruptState_ie (ra rb : Reg) (s : State) : (restoreInterruptState ra rb s).ie = s.ie := rfl
@[simp] theorem restoreInterruptState_mem (ra rb : Reg) (s : State) : (restoreInterruptState ra rb s).mem = s.mem := rfl
@[simp] theorem restoreInterruptState_iack (ra rb : Reg) (s : State) : (restoreInterruptState ra rb s).iack = s.iack := rfl

@[simp] theorem branchLinkIf_run (k : Cond) (ra rb rc : Reg) (s : State) : (branchLinkIf k ra rb rc s).run = s.run :=
  branchIf_run k rb rc s
@[simp] theorem branchLinkIf_ie (k : Cond) (ra rb rc : Reg) (s : State) : (branchLinkIf k ra rb rc s).ie = s.ie :=
  branchIf_ie k rb rc s
@[simp] theorem branchLinkIf_ipc (k : Cond) (ra rb rc : Reg) (s : State) : (branchLinkIf k ra rb rc s).ipc = s.ipc :=
  branchIf_ipc k rb rc s
@[simp] theorem branchLinkIf_ii (k : Cond) (ra rb rc : Reg) (s : State) : (branchLinkIf k ra rb rc s).ii = s.ii :=
  branchIf_ii k rb rc s
@[simp] theorem branchLinkIf_mem (k : Cond) (ra rb rc : Reg) (s : State) : (branchLinkIf k ra rb rc s).mem = s.mem :=
  branchIf_mem k rb rc s
@[simp] theorem branchLinkIf_iack (k : Cond) (ra rb rc : Reg) (s : State) : (branchLinkIf k ra rb rc s).iack = s.iack :=
  branchIf_iack k rb rc s

/-! ## What an instruction that completes does -/

/-- The instruction stores R[ra] as the word at the address (40_load_store.md R104, R105). -/
inductive StoresRegAt (s : State) : Instr → Reg → Word → Prop where
  | stAbs (ra : Reg) (c2 : BitVec 17) : StoresRegAt s (.stAbs ra c2) ra (absAddress s c2)
  | stDisp (ra rb : Reg) (c2 : BitVec 17) : StoresRegAt s (.stDisp ra rb c2) ra (dispAddress s rb c2)
  | str (ra : Reg) (c1 : BitVec 22) : StoresRegAt s (.str ra c1) ra (relAddress s c1)

/-- The state an instruction that completes leaves, by what it writes; the rows that write one register are told apart from the
branches and `rfi` by their operation code (30_encoding.md R74). -/
inductive Effect (s : State) : Instr → State → Prop where
  | writesReg {i : Instr} (hop : opcode i ∉ [8#5, 9#5, 30#5]) (ra : Reg) (v : Word) : Effect s i (s.setReg ra v)
  | branches {i : Instr} (hop : opcode i = 8#5) (k : Cond) (rb rc : Reg) : Effect s i (branchIf k rb rc s)
  | branchesWithLink {i : Instr} (hop : opcode i = 9#5) (k : Cond) (ra rb rc : Reg) : Effect s i (branchLinkIf k ra rb rc s)
  | stores {i : Instr} {ra : Reg} {a : Word} (hstore : StoresRegAt s i ra a) (ha : aligned a = true) :
      Effect s i (s.setMem (writeWord .bigEndian s.mem a (s.reg ra)))
  | nop : Effect s .nop s
  | stop : Effect s .stop (s.setRun false)
  | een : Effect s .een (s.setIe true)
  | edi : Effect s .edi (s.setIe false)
  | rfi : Effect s .rfi (interruptReturn s)
  | svi {ra rb : Reg} (hne : ra ≠ rb) : Effect s (.svi ra rb) (saveInterruptState config ra rb s)
  | ri (ra rb : Reg) : Effect s (.ri ra rb) (restoreInterruptState ra rb s)

/-- An access that completes found its address aligned. -/
theorem aligned_of_access {s t u : State} {a : Word}
    (h : (if aligned a = true then .next u else .fault (.misalignedData a s) : Result State) = .next t) :
    aligned a = true ∧ t = u := by
  split at h
  · cases h
    exact ⟨‹_›, rfl⟩
  · cases h

theorem loadInto_effect {i : Instr} {s t : State} {ra : Reg} {a : Word} (hop : opcode i ∉ [8#5, 9#5, 30#5])
    (h : loadInto config ra a s = .next t) : Effect s i t := by
  obtain ⟨-, rfl⟩ := aligned_of_access ((loadInto_default ra a s).symm.trans h)
  exact .writesReg hop ra _

theorem storeFrom_effect {i : Instr} {s t : State} {ra : Reg} {a : Word} (hstore : StoresRegAt s i ra a)
    (h : storeFrom config ra a s = .next t) : Effect s i t := by
  obtain ⟨ha, rfl⟩ := aligned_of_access ((storeFrom_default ra a s).symm.trans h)
  exact .stores hstore ha

/-- What an instruction that completes can do, said once. -/
theorem exec_effect {i : Instr} {s t : State} (h : exec i s = .next t) : Effect s i t := by
  cases i
  case ldAbs | ldDisp | ldr => exact loadInto_effect (by simp [opcode_eq]) h
  case stAbs ra c2 => exact storeFrom_effect (.stAbs ra c2) h
  case stDisp ra rb c2 => exact storeFrom_effect (.stDisp ra rb c2) h
  case str ra c1 => exact storeFrom_effect (.str ra c1) h
  case laAbs | laDisp | lar => cases h; exact .writesReg (by simp [opcode_eq]) _ _
  case add | addi | sub | neg | or | ori | and | andi | not => cases h; exact .writesReg (by simp [opcode_eq]) _ _
  case shrReg | shrConst | shraReg | shraConst | shlReg | shlConst | shcReg | shcConst =>
    cases h; exact .writesReg (by simp [opcode_eq]) _ _
  case brnv | br | brzr | brnz | brpl | brmi => cases h; exact .branches rfl _ _ _
  case brlnv | brl | brlzr | brlnz | brlpl | brlmi => cases h; exact .branchesWithLink rfl _ _ _ _
  case brReservedCond | brlReservedCond | unusedOp7 | unusedOp18 | unusedOp19 | unusedOp25 => cases h
  case nop => cases h; exact .nop
  case stop => cases h; exact .stop
  case een => cases h; exact .een
  case edi => cases h; exact .edi
  case rfi => cases h; exact .rfi
  case ri ra rb => cases h; exact .ri ra rb
  case svi ra rb =>
    by_cases hne : ra = rb
    · cases (if_pos hne).symm.trans h
    · cases (if_neg hne).symm.trans h
      exact .svi hne

/-! ## What an effect leaves of each field -/

section
variable {i : Instr} {s t : State}

theorem Effect.run_cases (h : Effect s i t) : i = .stop ∨ t.run = s.run := by
  cases h with
  | stop => exact .inl rfl
  | _ => exact .inr (by simp)

theorem Effect.een_or_rfi_of_ie_set (h : Effect s i t) (hclear : s.ie = false) (hset : t.ie = true) : i = .een ∨ i = .rfi := by
  cases h with
  | een => exact .inl rfl
  | rfi => exact .inr rfl
  | _ => simp [hclear] at hset

theorem Effect.edi_of_ie_cleared (h : Effect s i t) (hset : s.ie = true) (hclear : t.ie = false) : i = .edi := by
  cases h with
  | edi => rfl
  | _ => simp [hset] at hclear

theorem Effect.interruptRegisters_cases (h : Effect s i t) : (∃ ra rb, i = .ri ra rb) ∨ (t.ipc = s.ipc ∧ t.ii = s.ii) := by
  cases h with
  | ri ra rb => exact .inl ⟨ra, rb, rfl⟩
  | _ => exact .inr (by simp)

theorem Effect.mem_cases (h : Effect s i t) :
    (∃ ra a, StoresRegAt s i ra a ∧ t.mem = writeWord .bigEndian s.mem a (s.reg ra)) ∨ t.mem = s.mem := by
  cases h with
  | @stores _ ra a hstore _ => exact .inl ⟨ra, a, hstore, rfl⟩
  | _ => exact .inr (by simp)

theorem Effect.iack_eq (h : Effect s i t) : t.iack = s.iack := by cases h <;> simp

/-- Only the branches and `rfi` write PC. -/
theorem Effect.pc_eq (h : Effect s i t) (hop : opcode i ∉ [8#5, 9#5, 30#5]) : t.pc = s.pc := by
  cases h with
  | branches h8 => simp [h8] at hop
  | branchesWithLink h9 => simp [h9] at hop
  | rfi => simp [opcode_eq] at hop
  | _ => simp

end

/-! ## What a step that completes does -/

/-- Interrupt entry, or the effect of the instruction that runs on the state after its fetch. -/
theorem step_effect {s t : State} (h : step s = .next t) :
    (∃ q, Accepts s q ∧ t = interruptEntry q s.passBoundary) ∨ ∃ i, RunsInstr s i ∧ Effect (afterFetch s) i t := by
  rcases step_cases h with hentry | ⟨w, hexec, hfetch, hw⟩
  · exact .inl hentry
  · exact .inr ⟨decodeWord w, ⟨hexec, w, hfetch, rfl⟩, exec_effect hw⟩

/-- Settles O12: memory is kept, or a word is stored in it. -/
theorem stepKeepsMemoryCanonical : Obligations.StepKeepsMemoryCanonical := by
  intro s t hinv h
  unfold State.Inv at hinv ⊢
  rcases step_effect h with ⟨q, -, rfl⟩ | ⟨i, -, heffect⟩
  · exact hinv
  · rcases heffect.mem_cases with ⟨ra, a, -, hmem⟩ | hmem
    · exact hmem ▸ writeWord_wf hinv
    · exact hmem ▸ hinv

/-- Settles O51. -/
theorem onlyStopClearsRun : Obligations.OnlyStopClearsRun := by
  intro s t h hstopped
  rcases step_effect h with ⟨q, ⟨hrun, -⟩, rfl⟩ | ⟨i, hruns, heffect⟩
  · cases hrun.symm.trans hstopped
  · rcases heffect.run_cases with rfl | hkept
    · exact hruns
    · obtain ⟨⟨hrun, -⟩, -⟩ := hruns
      cases hrun.symm.trans (hkept.symm.trans hstopped)

/-- Settles O52. -/
theorem exceptionEnableChangesOnlyAsListed : Obligations.ExceptionEnableChangesOnlyAsListed := by
  intro s t h
  rcases step_effect h with ⟨q, hq, rfl⟩ | ⟨i, hruns, heffect⟩
  · exact ⟨fun _ hset => (nomatch hset), fun _ _ => .inl ⟨q, hq⟩⟩
  · refine ⟨fun hclear hset => ?_, fun hset hclear => .inr ?_⟩
    · rcases heffect.een_or_rfi_of_ie_set hclear hset with rfl | rfl
      · exact .inl hruns
      · exact .inr hruns
    · exact heffect.edi_of_ie_cleared hset hclear ▸ hruns

/-- Settles O53. -/
theorem interruptRegistersChangeOnlyAsListed : Obligations.InterruptRegistersChangeOnlyAsListed := by
  intro s t h hchanged
  rcases step_effect h with ⟨q, hq, -⟩ | ⟨i, hruns, heffect⟩
  · exact .inl ⟨q, hq⟩
  · rcases heffect.interruptRegisters_cases with ⟨ra, rb, rfl⟩ | ⟨hipc, hii⟩
    · exact .inr ⟨ra, rb, hruns⟩
    · exact (hchanged.elim (· hipc) (· hii)).elim

theorem keepsMemory_of_mem_eq {s t : State} (h : t.mem = s.mem) : KeepsMemory s t :=
  fun a => congrArg (Memory.read · a.toNat) h

/-- Every byte of memory after a word was stored at `a`: the four of the word, and the others as before. -/
theorem holdsWord_of_mem_eq {s t : State} {a v : Word} (h : t.mem = writeWord .bigEndian s.mem a v) :
    HoldsWord a v t ∧ KeepsMemoryOutside a s t := by
  unfold HoldsWord KeepsMemoryOutside State.byte
  rw [h]
  refine ⟨read_writeWord_big_bytes s.mem a v, fun b hb => ?_⟩
  obtain ⟨h0, h1, h2, h3⟩ : b ≠ a ∧ b ≠ a + 1 ∧ b ≠ a + 2 ∧ b ≠ a + 3 := by simpa [InWord] using hb
  exact read_writeWord_big_outside s.mem a v b h0 h1 h2 h3

/-- Settles O54: only the relative address sees the PC that the fetch advanced. -/
theorem memoryChangesOnlyByStores : Obligations.MemoryChangesOnlyByStores := by
  intro s t h
  rcases step_effect h with ⟨q, -, rfl⟩ | ⟨i, hruns, heffect⟩
  · exact .inl fun _ => rfl
  · rcases heffect.mem_cases with ⟨ra, a, hstore, hmem⟩ | hmem
    · obtain ⟨hword, houtside⟩ := holdsWord_of_mem_eq (s := s) hmem
      refine .inr ⟨ra, a, hword, houtside, ?_⟩
      cases hstore with
      | stAbs _ c2 => exact .inl ⟨c2, hruns, rfl⟩
      | stDisp _ rb c2 => exact .inr (.inl ⟨rb, c2, hruns, rfl⟩)
      | str _ c1 => exact .inr (.inr ⟨c1, hruns, rfl⟩)
    · exact .inl (keepsMemory_of_mem_eq hmem)

theorem exec_of_runsInstr {s t : State} {i : Instr} (hruns : RunsInstr s i) (h : step s = .next t) :
    exec i (afterFetch s) = .next t := by
  obtain ⟨hexec, w, hfetch, rfl⟩ := hruns
  exact recordWord_eq_next ((step_fetched hexec hfetch).symm.trans h)

/-- Settles O49. -/
theorem otherInstructionsFallThrough : Obligations.OtherInstructionsFallThrough := by
  intro s t i hruns h hop
  have hpc : t.pc = s.pc + 4 := (exec_effect (exec_of_runsInstr hruns h)).pc_eq hop
  rw [hpc, BitVec.toNat_add]
  rfl

theorem not_accepts_of_executes {s : State} (hexec : Executes s) : ¬ ∃ q, Accepts s q := by
  rintro ⟨q, -, hie, hq⟩
  obtain ⟨-, hie' | hnone⟩ := hexec
  · cases hie.symm.trans hie'
  · cases hq.symm.trans hnone

/-- Settles O55: entry sets the line, the boundary before an instruction clears it, and no instruction writes it. -/
theorem acknowledgeMarksExactlyTheAcceptedRequests : Obligations.AcknowledgeMarksExactlyTheAcceptedRequests := by
  intro s t h
  rcases step_effect h with ⟨q, hq, rfl⟩ | ⟨i, ⟨hexec, -⟩, heffect⟩
  · exact iff_of_true rfl ⟨q, hq⟩
  · have hline : t.iack = false := heffect.iack_eq
    exact iff_of_false (by simp [hline]) (not_accepts_of_executes hexec)

end Sys2Proof.Machine
end

section
/-! SUPPORT. O32, O42, O43, O45, O48: the fetch, and the steps of single states. -/

namespace Sys2Proof.Machine

/-! ## A fetch that stops (20_memory.md R44, R47) -/

/-- No region that holds the address permits the access (R47). -/
theorem presence_absent {permits : Region → Bool} {map : List Region} {a : Word}
    (h : ∀ g ∈ map, Holds g a → permits g = false) : presence permits map a = .absent := by
  have hnone : (map.find? fun g => decide (g.base ≤ a.toNat) && decide (a.toNat < g.base + g.size) && permits g) = none := by
    refine List.find?_eq_none.2 fun g hg hfound => ?_
    simp only [Bool.and_eq_true, decide_eq_true_eq] at hfound
    obtain ⟨hholds, hpermits⟩ := hfound
    cases hpermits.symm.trans (h g hg hholds)
  rw [presence, hnone]

/-- An access that passes the alignment check finds no memory (R42). -/
theorem checkAccess_absent {c : Config} {permits : Region → Bool} {a : Word} (hpass : PassesAlignment c a)
    (habsent : presence permits c.memMap a = .absent) (misalignedAt : Word → State → Fault) (s : State) :
    checkAccess c permits misalignedAt s a = .fault (.noMemory a s) := by
  have hgoesOn : ¬ (c.misaligned = .fault ∧ aligned a = false) := by
    rintro ⟨hfault, hmisaligned⟩
    cases (hpass hfault).symm.trans hmisaligned
  rw [checkAccess, if_neg hgoesOn, habsent]

theorem step_misalignedFetch {s : State} (hexec : Executes s) (hpc : s.pc.toNat % 4 ≠ 0) :
    step s = .fault (.misalignedFetch s.pc s.passBoundary) := by
  have hfetch := (fetch_default s.passBoundary).trans (if_neg (mt (aligned_iff s.pc).1 hpc))
  rw [step_executes hexec, runInstruction, hfetch]
  rfl

/-- Settles O48. -/
theorem misalignedFetchStops : Obligations.MisalignedFetchStops := by
  refine ⟨fun s hexec hpc => ⟨_, step_misalignedFetch hexec hpc, leavesAll_passBoundary s⟩, fun c s hpass hunreadable => ?_⟩
  rw [fetch, memRead, checkAccess_absent hpass (presence_absent hunreadable), andThen_fault]

/-! ## A fetch that goes on -/

theorem fetch_wordAt {s : State} (h : aligned s.pc = true) : fetch config s = .next (s.wordAt s.pc) :=
  fetch_eq_next.2 ⟨h, rfl⟩

/-- Settles O42: the bytes that decode are those of the word that is fetched. -/
theorem stepRunsTheDecodedInstruction : Obligations.StepRunsTheDecodedInstruction := by
  intro s i rest hexec haligned hbytes
  have hdecode : decodeWord (s.wordAt s.pc) = i := congrArg Prod.fst (Except.ok.inj hbytes)
  obtain ⟨hpc, hregs, hmem, hcontrol⟩ := leavesAllButPc_afterFetch s
  refine ⟨?_, hpc, hregs, hmem, hcontrol, rfl⟩
  rw [step_fetched hexec (fetch_wordAt haligned), hdecode]

/-! ## The placed word (log entry 16) -/

/-- A PC rounded down to a multiple of 4. -/
theorem aligned_append_zeros (v : BitVec 30) : aligned (v ++ 0#2 : Word) = true := by
  rw [aligned, extract_append_low _ _ (by omega), extract_all]
  rfl

theorem withFetchWord_mem (s : State) (w : Word) :
    (s.withFetchWord 32 w.toNat).mem = writeWord .bigEndian s.mem (s.withFetchWord 32 w.toNat).pc w := by
  rw [State.withFetchWord, BitVec.ofNat_toNat, BitVec.setWidth_eq]
  rfl

/-- A request that would be accepted is withdrawn. -/
theorem executes_withFetchWord (s : State) (w : Word) : Executes (s.withFetchWord 32 w.toNat) := by
  refine ⟨rfl, ?_⟩
  cases hie : s.ie with
  | false => exact .inl hie
  | true =>
    right
    unfold State.withFetchWord placeWord State.presented
    rcases hirq : s.irq with _ | ⟨_ | q, rest⟩ <;> simp [hie]

theorem fetch_withFetchWord (s : State) (w : Word) : fetch config (s.withFetchWord 32 w.toNat) = .next w := by
  refine fetch_eq_next.2 ⟨aligned_append_zeros _, ?_⟩
  rw [withFetchWord_mem, readWord_writeWord_big]

/-- Settles O43. -/
theorem placedWordIsTheNextInstruction : Obligations.PlacedWordIsTheNextInstruction := fun s w =>
  ⟨fetch_withFetchWord s w, step_fetched (executes_withFetchWord s w) (fetch_withFetchWord s w), fun _ _ => rfl,
    (holdsWord_of_mem_eq (withFetchWord_mem s w)).2⟩

/-! ## Requests while IE = 0 -/

/-- While IE = 0 the answer of the boundary plays no part in the step: what is left of it is the same. -/
theorem step_eq_of_passBoundary_eq {s t : State} (hs : s.ie = false) (ht : t.ie = false) (h : s.passBoundary = t.passBoundary) :
    step s = step t := by
  have hrun : s.run = t.run := by simpa using congrArg State.run h
  cases hr : s.run with
  | false => rw [step_halted hr, step_halted (hrun.symm.trans hr)]
  | true => rw [step_executes ⟨hr, .inl hs⟩, step_executes ⟨hrun.symm.trans hr, .inl ht⟩, h]

/-- Settles O45. -/
theorem disabledRequestsHaveNoEffect : Obligations.DisabledRequestsHaveNoEffect := by
  intro s q rest hie
  refine ⟨step_eq_of_passBoundary_eq hie hie rfl, fun t h => ?_⟩
  rw [← Bool.not_eq_true, acknowledgeMarksExactlyTheAcceptedRequests _ t h]
  rintro ⟨p, -, henabled, -⟩
  cases hie.symm.trans henabled

/-! ## Branches that are taken (43_branch.md R161, R162) -/

/-- The instruction completes with PC at the target, and nothing that decides what the next boundary does has changed. -/
def JumpsTo (target : Word) (i : Instr) (s : State) : Prop :=
  ∃ t, exec i s = .next t ∧ t.pc = target ∧ KeepsControl s t ∧ KeepsInterface s t

/-- A `br` or `brl` form whose condition holds. -/
theorem jumpsTo_of_holds {k : Cond} {i : Instr} {s : State} {ra rb rc : Reg} (hk : k.holds (s.reg rc) = true)
    (hexec : exec i s = .next (branchIf k rb rc s) ∨ exec i s = .next (branchLinkIf k ra rb rc s)) : JumpsTo (s.reg rb) i s := by
  rcases hexec with hexec | hexec
  · exact ⟨_, hexec, by simp [hk], by simp [KeepsControl], by simp [KeepsInterface]⟩
  · obtain ⟨-, htaken, -, -, -, hcontrol, hinterface⟩ := branchLinkIf_branchesTo ra rb rc s (iff_of_true hk trivial)
    exact ⟨_, hexec, htaken trivial, hcontrol, hinterface⟩

/-- The two rows of one condition, each at its `exec`. -/
theorem exec_of_either {i i' i'' : Instr} (hi : i = i' ∨ i = i'') (s : State) : exec i s = exec i' s ∨ exec i s = exec i'' s :=
  hi.imp (congrArg (exec · s)) (congrArg (exec · s))

/-- Settles O32: the branch completes, and the next boundary executes, since the branch leaves it as it found it. -/
theorem misalignedTargetIsCaughtAtTheNextFetch : Obligations.MisalignedTargetIsCaughtAtTheNextFetch := by
  intro s i ra rb rc hruns htaken hboundary hrb
  have hjumps : JumpsTo (s.reg rb) i (afterFetch s) := by
    rcases htaken with hi | ⟨hi, hc⟩ | ⟨hi, hc⟩ | ⟨hi, hc⟩ | ⟨hi, hc⟩
    · exact jumpsTo_of_holds (k := .always) (rc := 0) rfl (exec_of_either hi _)
    · exact jumpsTo_of_holds (k := .zero) (rc := rc) (beq_iff_eq.2 hc) (exec_of_either hi _)
    · exact jumpsTo_of_holds (k := .nonzero) (rc := rc) (bne_iff_ne.2 hc) (exec_of_either hi _)
    · exact jumpsTo_of_holds (k := .plus) (rc := rc) ((holds_plus _).2 hc) (exec_of_either hi _)
    · exact jumpsTo_of_holds (k := .minus) (rc := rc) ((holds_minus _).2 hc) (exec_of_either hi _)
  obtain ⟨t, hexec, hpc, ⟨hrun, hie, -, -⟩, hirq, -, -⟩ := hjumps
  obtain ⟨hexecutes, w, hfetch, rfl⟩ := hruns
  have hstep : step s = .next t := by rw [step_fetched hexecutes hfetch, hexec, recordWord_next]
  have hpresented : t.presented = (afterFetch s).presented := by rw [State.presented, hirq]; rfl
  have hnext : Executes t := ⟨hrun.trans hexecutes.1, hboundary.imp hie.trans hpresented.trans⟩
  have hfault := step_misalignedFetch hnext (by rwa [hpc])
  exact ⟨t, t.passBoundary, hstep, hpc, hpc ▸ hfault, leavesAll_passBoundary t⟩

end Sys2Proof.Machine
end

section
/-! SUPPORT. O13, O37, O39, O56, O57: `svi` and `ri`, and the state in which a run begins. -/

namespace Sys2Proof.Machine

/-! ## svi and ri (44_miscellaneous.md R195, R196) -/

theorem exec_svi {ra rb : Reg} (hne : ra ≠ rb) (s : State) : exec (.svi ra rb) s = .next (saveInterruptState config ra rb s) :=
  if_neg hne

theorem exec_svi_same (ra : Reg) (s : State) :
    exec (.svi ra ra) s = .fault (.conflictingWrite (encode (.svi ra ra)) s) :=
  if_pos rfl

/-- Settles O37. -/
theorem saveInterruptStateWritesTwoRegisters : Obligations.SaveInterruptStateWritesTwoRegisters := by
  refine ⟨fun s ra rb hne => ?_, fun s ra => ⟨_, exec_svi_same ra s⟩, fun s w hexec hfetch hop hsame => ?_⟩
  · obtain ⟨hlow, hipc, -, -⟩ := saveUpperHalfFollowsTheParameter config s ra rb hne
    refine ⟨_, exec_svi hne s, hlow, hipc, fun i hi => ?_, fun _ => rfl, rfl, ⟨rfl, rfl, rfl, rfl⟩, rfl, rfl⟩
    obtain ⟨hra, hrb⟩ : i ≠ ra ∧ i ≠ rb := by simpa using hi
    simp [saveInterruptState, hra.symm, hrb.symm]
  · have hdecode : decodeWord w = .svi (fieldRb w) (fieldRb w) := hsame ▸ decodeWord_of hop
    refine ⟨afterFetch s, ?_, leavesAllButPc_afterFetch s⟩
    rw [step_fetched hexec hfetch, hdecode, exec_svi_same, recordWord_fault]
    rfl

/-- Settles O39. -/
theorem restoreInterruptStateReadsTwoRegisters : Obligations.RestoreInterruptStateReadsTwoRegisters := fun s ra rb =>
  ⟨restoreInterruptState ra rb s, rfl, by simp [restoreInterruptState], rfl, fun _ _ => rfl, fun _ => rfl, rfl, rfl, rfl,
    rfl, rfl, rfl⟩

/-! ## The image in memory (30_encoding.md R88) -/

theorem Memory.load_append (m : Memory) (img more : Image) : m.load (img ++ more) = (m.load img).load more := by
  induction img generalizing m with
  | nil => rfl
  | cons c rest ih => exact ih _

/-- The loader leaves alone what the image gives no byte for. -/
theorem Memory.written_load_of_not_given {m : Memory} {img : Image} {a : Nat} (h : ∀ c ∈ img, c.1 ≠ a) :
    (m.load img).written a = m.written a := by
  induction img generalizing m with
  | nil => rfl
  | cons c rest ih =>
    obtain ⟨hc, hrest⟩ := List.forall_mem_cons.1 h
    calc ((m.write c.1 c.2).load rest).written a
      _ = (m.write c.1 c.2).written a := ih hrest
      _ = m.written a := by rw [Memory.written_write, if_neg hc]

/-- The last byte an image gives for an address stands. -/
theorem Memory.written_load_of_last (m : Memory) {before after : Image} {a : Nat} (v : Byte) (h : ∀ c ∈ after, c.1 ≠ a) :
    (m.load (before ++ (a, v) :: after)).written a = some v := by
  rw [Memory.load_append, Memory.load, Memory.written_load_of_not_given h, Memory.written_write, if_pos rfl]

theorem Memory.read_of_written {m : Memory} {a : Nat} {v : Byte} (h : m.written a = some v) : m.read a = v := by
  rw [Memory.read, h]

/-! ## The state in which a run begins (70_reset_and_hazards.md R240, R241) -/

/-- Settles O13. -/
theorem bootMemoryIsCanonical : Obligations.BootMemoryIsCanonical :=
  ⟨reset_mem_wf, fun _ himg => Memory.wf_load reset_mem_wf himg⟩

/-- Settles O56. -/
theorem bootStartsAtTheResetAddress : Obligations.BootStartsAtTheResetAddress := by
  refine fun img => ⟨rfl, rfl, rfl, ⟨rfl, .inl rfl⟩, fetch_wordAt (show aligned 0#32 = true by decide), ?_⟩
  rintro before after a v rfl hlast
  exact Memory.read_of_written (Memory.written_load_of_last [] v hlast)

/-- Settles O57. -/
theorem bootValuesTheModelChose : Obligations.BootValuesTheModelChose := fun _ i _ =>
  ⟨State.reg_reset i, rfl, rfl, Memory.written_load_of_not_given⟩

end Sys2Proof.Machine
end

section
/-! SUPPORT. O8 to O11, O14 to O17, O19, O50: words of memory, and the instructions that load and store them. -/

namespace Sys2Proof.Machine

/-! ## The checks before an access (20_memory.md R42, R43, R47) -/

theorem passesAlignment_iff {c : Config} {a : Word} : PassesAlignment c a ↔ ¬ (c.misaligned = .fault ∧ aligned a = false) := by
  simp [PassesAlignment]

theorem checkAccess_misaligned {c : Config} {a : Word} (hfail : ¬ PassesAlignment c a) (permits : Region → Bool)
    (misalignedAt : Word → State → Fault) (s : State) : checkAccess c permits misalignedAt s a = .fault (misalignedAt a s) :=
  if_pos (not_not.1 (mt passesAlignment_iff.2 hfail))

theorem checkAccess_memory {c : Config} {permits : Region → Bool} {a : Word} (hpass : PassesAlignment c a)
    (hmemory : presence permits c.memMap a = .memory) (misalignedAt : Word → State → Fault) (s : State) :
    checkAccess c permits misalignedAt s a = .next () := by
  rw [checkAccess, if_neg (passesAlignment_iff.1 hpass), hmemory]

theorem checkAccess_device {c : Config} {permits : Region → Bool} {a : Word} (hpass : PassesAlignment c a)
    (hdevice : presence permits c.memMap a = .device) (misalignedAt : Word → State → Fault) (s : State) :
    checkAccess c permits misalignedAt s a = .refused (.deviceAccess a) := by
  rw [checkAccess, if_neg (passesAlignment_iff.1 hpass), hdevice]

/-- Some region that holds the address permits the access, and every such region is a device (R46, R47). -/
theorem presence_device {permits : Region → Bool} {map : List Region} {a : Word}
    (hsome : ∃ g ∈ map, Holds g a ∧ permits g = true)
    (hdevices : ∀ g ∈ map, Holds g a → permits g = true → g.kind = .device) : presence permits map a = .device := by
  have hlooks (g : Region) : (decide (g.base ≤ a.toNat) && decide (a.toNat < g.base + g.size) && permits g) = true ↔
      Holds g a ∧ permits g = true := by simp [Holds]
  simp only [← hlooks] at hsome
  obtain ⟨g, hfound⟩ := Option.isSome_iff_exists.1 (List.find?_isSome.2 hsome)
  have hg := List.find?_some hfound
  obtain ⟨hholds, hpermits⟩ := (hlooks g).1 hg
  have hkind : g.kind = .device := hdevices g (List.mem_of_find?_eq_some hfound) hholds hpermits
  rw [presence, hfound]
  simp [hkind]

/-- Settles O10: what the checks answer is what the access answers. -/
theorem accessChecksComeInOrder : Obligations.AccessChecksComeInOrder := by
  refine fun c f s a v => ⟨fun hfail => ⟨?_, ?_⟩, fun hpass hnone => ?_, fun hpass hnone => ?_,
    fun hpass hsome hdevices => ?_, fun hpass hsome hdevices => ?_⟩
  · rw [memRead, checkAccess_misaligned hfail, andThen_fault]
  · rw [memWrite, checkAccess_misaligned hfail, andThen_fault]
  · rw [memRead, checkAccess_absent hpass (presence_absent hnone), andThen_fault]
  · rw [memWrite, checkAccess_absent hpass (presence_absent hnone), andThen_fault]
  · rw [memRead, checkAccess_device hpass (presence_device hsome hdevices), andThen_refused]
  · rw [memWrite, checkAccess_device hpass (presence_device hsome hdevices), andThen_refused]

/-! ## Words (R41, R42) -/

/-- Settles O9: the default map lets every address pass the second check. -/
theorem wordReadJoinsFourBytes : Obligations.WordReadJoinsFourBytes := by
  intro c f s a hmap horder hpass
  have hmemory : presence (·.readable) c.memMap a = .memory := hmap ▸ (presence_default a).1
  rw [memRead, checkAccess_memory hpass hmemory, andThen_next, horder]
  rfl

theorem storesOnlyWord_setMem (s : State) (a v : Word) : StoresOnlyWord a v s (s.setMem (writeWord .bigEndian s.mem a v)) := by
  obtain ⟨hholds, houtside⟩ := holdsWord_of_mem_eq (s := s) (State.mem_setMem s (writeWord .bigEndian s.mem a v))
  exact ⟨hholds, houtside, fun _ _ => rfl, rfl, ⟨rfl, rfl, rfl, rfl⟩, rfl, rfl, rfl⟩

/-- Settles O8. -/
theorem wordWriteStoresFourBytes : Obligations.WordWriteStoresFourBytes := fun s a v ha =>
  ⟨_, (memWrite_default s a v).trans (if_pos ha), storesOnlyWord_setMem s a v⟩

/-! ## The canonical form (log entry 10) -/

theorem Memory.wfFrom_cons {lo a : Nat} {v : Byte} {rest : Memory} :
    Memory.wfFrom lo ((a, v) :: rest) = true ↔ lo ≤ a ∧ a < 2 ^ 32 ∧ Memory.wfFrom (a + 1) rest = true := by
  simp [Memory.wfFrom, and_assoc]

theorem Memory.written_head (a : Nat) (v : Byte) (rest : Memory) : Memory.written ((a, v) :: rest) a = some v := if_pos rfl

theorem Memory.written_tail {a b : Nat} (v : Byte) (rest : Memory) (h : a ≠ b) :
    Memory.written ((a, v) :: rest) b = rest.written b := if_neg h

theorem Memory.le_of_written {lo a : Nat} {v : Byte} {m : Memory} (hm : Memory.wfFrom lo m = true) (h : m.written a = some v) :
    lo ≤ a := by
  induction m generalizing lo with
  | nil => cases h
  | cons c rest ih =>
    obtain ⟨b, w⟩ := c
    obtain ⟨hlo, -, hrest⟩ := Memory.wfFrom_cons.1 hm
    by_cases hb : b = a
    · exact hb ▸ hlo
    · have habove : b + 1 ≤ a := ih hrest (Memory.written_tail w rest hb ▸ h)
      omega

theorem Memory.written_eq_none_of_lt {lo a : Nat} {m : Memory} (hm : Memory.wfFrom lo m = true) (ha : a < lo) :
    m.written a = none :=
  Option.eq_none_iff_forall_ne_some.2 fun _ h => Nat.not_le_of_lt ha (Memory.le_of_written hm h)

theorem Memory.head_le_of_written {lo a b : Nat} {v w : Byte} {m : Memory} (hm : Memory.wfFrom lo ((a, v) :: m) = true)
    (h : Memory.written ((a, v) :: m) b = some w) : a ≤ b :=
  have ⟨_, ha, hrest⟩ := Memory.wfFrom_cons.1 hm
  Memory.le_of_written (Memory.wfFrom_cons.2 ⟨le_rfl, ha, hrest⟩) h

/-- By induction over both lists: each head is a byte written in the other list too, so that neither address is below the other,
and the tails are again canonical and written alike. -/
theorem Memory.eq_of_written_eq {lo : Nat} {m n : Memory} (hm : Memory.wfFrom lo m = true) (hn : Memory.wfFrom lo n = true)
    (h : ∀ a, a < 2 ^ 32 → m.written a = n.written a) : m = n := by
  induction m generalizing lo n with
  | nil =>
    cases n with
    | nil => rfl
    | cons d more =>
      obtain ⟨-, hb, -⟩ := Memory.wfFrom_cons.1 hn
      cases (h d.1 hb).trans (Memory.written_head d.1 d.2 more)
  | cons c rest ih =>
    obtain ⟨a, v⟩ := c
    obtain ⟨-, ha, hrest⟩ := Memory.wfFrom_cons.1 hm
    have hna : n.written a = some v := (h a ha).symm.trans (Memory.written_head a v rest)
    cases n with
    | nil => cases hna
    | cons d more =>
      obtain ⟨b, w⟩ := d
      obtain ⟨-, hb, hmore⟩ := Memory.wfFrom_cons.1 hn
      have hmb : Memory.written ((a, v) :: rest) b = some w := (h b hb).trans (Memory.written_head b w more)
      obtain rfl : a = b := Nat.le_antisymm (Memory.head_le_of_written hm hmb) (Memory.head_le_of_written hn hna)
      obtain rfl : v = w := Option.some.inj ((Memory.written_head a v rest).symm.trans hmb)
      have htails : rest = more := by
        refine ih hrest hmore fun x hx => ?_
        by_cases hxa : a = x
        · subst hxa
          rw [Memory.written_eq_none_of_lt hrest a.lt_succ_self, Memory.written_eq_none_of_lt hmore a.lt_succ_self]
        · rw [← Memory.written_tail v rest hxa, ← Memory.written_tail v more hxa, h x hx]
      rw [htails]

/-- Settles O14. -/
theorem canonicalMemoriesWrittenAlikeAreEqual : Obligations.CanonicalMemoriesWrittenAlikeAreEqual := fun _ _ =>
  Memory.eq_of_written_eq

/-! ## Effective addresses (40_load_store.md R100, R101) -/

/-- Adding a sign-extended constant is a signed sum modulo 2^32. -/
theorem add_signExtend {n : Nat} (v : Word) (k : BitVec n) : v + k.signExtend 32 = BitVec.ofInt 32 (v.toNat + k.toInt) := by
  rw [BitVec.ofInt_add, BitVec.ofInt_natCast, BitVec.ofNat_toNat, BitVec.setWidth_eq, BitVec.signExtend]

/-- Settles O15: the absolute address does not look at the state. -/
theorem effectiveAddressesAreTheSpecsSums : Obligations.EffectiveAddressesAreTheSpecsSums := fun _ _ _ _ _ =>
  ⟨rfl, fun hrb => (if_neg hrb).trans (add_signExtend _ _), rfl, rfl, add_signExtend _ _⟩

/-! ## Loads and stores (R102 to R105) -/

theorem loadInto_aligned (ra : Reg) {a : Word} (s : State) (ha : aligned a = true) :
    ∃ t, loadInto config ra a s = .next t ∧ t.reg ra = s.wordAt a ∧ WritesOnlyReg ra s t := by
  refine ⟨_, (loadInto_default ra a s).trans (if_pos ha), State.reg_setReg_same .., fun i hi => ?_, rfl, fun _ => rfl,
    ⟨rfl, rfl, rfl, rfl⟩, rfl, rfl, rfl⟩
  exact State.reg_setReg_ne s _ (List.ne_of_not_mem_cons hi).symm

/-- Settles O16. -/
theorem loadsReadTheAddressedWord : Obligations.LoadsReadTheAddressedWord := fun s ra _ _ _ =>
  ⟨loadInto_aligned ra s, loadInto_aligned ra s, loadInto_aligned ra s⟩

/-- Settles O17: a store is a word write of the register. -/
theorem storesWriteTheAddressedWord : Obligations.StoresWriteTheAddressedWord := fun s ra _ _ _ =>
  ⟨wordWriteStoresFourBytes s _ (s.reg ra), wordWriteStoresFourBytes s _ (s.reg ra), wordWriteStoresFourBytes s _ (s.reg ra)⟩

theorem loadInto_misaligned (ra : Reg) {a : Word} (s : State) (ha : a.toNat % 4 ≠ 0) :
    loadInto config ra a s = .fault (.misalignedData a s) :=
  (loadInto_default ra a s).trans (if_neg (mt (aligned_iff a).1 ha))

theorem storeFrom_misaligned (ra : Reg) {a : Word} (s : State) (ha : a.toNat % 4 ≠ 0) :
    storeFrom config ra a s = .fault (.misalignedData a s) :=
  (storeFrom_default ra a s).trans (if_neg (mt (aligned_iff a).1 ha))

/-- Settles O19. -/
theorem misalignedDataAccessStops : Obligations.MisalignedDataAccessStops := fun s ra _ _ _ =>
  ⟨fun ha => ⟨loadInto_misaligned ra s ha, storeFrom_misaligned ra s ha⟩,
    fun ha => ⟨loadInto_misaligned ra s ha, storeFrom_misaligned ra s ha⟩,
    fun ha => ⟨loadInto_misaligned ra s ha, storeFrom_misaligned ra s ha⟩⟩

theorem storeFrom_eq_next {s t : State} {ra : Reg} {a : Word} (h : storeFrom config ra a s = .next t) :
    aligned a = true ∧ t = s.setMem (writeWord .bigEndian s.mem a (s.reg ra)) :=
  aligned_of_access ((storeFrom_default ra a s).symm.trans h)

/-- A load after a store, at an address that is formed from registers and PC alone. -/
theorem loadInto_of_storeFrom {s t : State} {ra : Reg} {address : State → Word}
    (hmem : ∀ m, address (s.setMem m) = address s) (h : storeFrom config ra (address s) s = .next t) (rd : Reg) :
    loadInto config rd (address t) t = .next (t.setReg rd (s.reg ra)) := by
  obtain ⟨ha, rfl⟩ := storeFrom_eq_next h
  rw [hmem, loadInto_default, if_pos ha, State.mem_setMem, readWord_writeWord_big]

/-- Settles O11: none of the three address modes looks at memory. -/
theorem storedWordIsLoadedBack : Obligations.StoredWordIsLoadedBack := fun _ _ _ rd rb c2 c1 =>
  ⟨fun h => loadInto_of_storeFrom (address := (absAddress · c2)) (fun _ => rfl) h rd,
    fun h => loadInto_of_storeFrom (address := (dispAddress · rb c2)) (fun _ => rfl) h rd,
    fun h => loadInto_of_storeFrom (address := (relAddress · c1)) (fun _ => rfl) h rd⟩

/-! ## A store into the next instruction (20_memory.md R52) -/

/-- The relative address with the constant 0 is the PC that the fetch advanced. -/
theorem relAddress_zero (s : State) : relAddress s 0#22 = s.pc := BitVec.add_zero s.pc

/-- Settles O50: the store wrote the word at its own PC, which is where the next fetch reads. -/
theorem storeIntoTheNextInstructionIsFetched : Obligations.StoreIntoTheNextInstructionIsFetched := by
  intro s t ra hruns h
  obtain ⟨ha, rfl⟩ := storeFrom_eq_next (exec_of_runsInstr hruns h)
  rw [relAddress_zero] at ha ⊢
  exact fetch_eq_next.2 ⟨ha, readWord_writeWord_big _ _ _⟩

end Sys2Proof.Machine
end

section
/-! SUPPORT. O36: the return from an interrupt and the boundary after it (60_exceptions.md R215, R219). -/

namespace Sys2Proof.Machine

/-- Settles O36: after the return IE is 1, so that the next boundary accepts what is presented, and else fetches at IPC. -/
theorem returnFromInterruptRestoresPcAndEnables : Obligations.ReturnFromInterruptRestoresPcAndEnables := by
  refine ⟨fun _ hop => decodeWord_of hop, fun s => ⟨interruptReturn s, rfl, rfl, rfl, rfl, rfl, rfl, fun _ _ => rfl,
    fun _ => rfl, ⟨rfl, rfl, rfl⟩, fun q hrun hq => ?_, fun hrun hnone hipc => ?_⟩⟩
  · have haccepts : Accepts (interruptReturn s) q := ⟨hrun, rfl, hq⟩
    exact ⟨_, step_accepts haccepts, rfl, rfl⟩
  · have hexecutes : Executes (interruptReturn s) := ⟨hrun, .inr hnone⟩
    exact ⟨_, step_misalignedFetch hexecutes hipc, leavesAll_passBoundary _⟩

end Sys2Proof.Machine
end

section
/-! SUPPORT. O2 to O6: every word is the encoding of its instruction but for the bits its row ignores (30_encoding.md R61 to R78). -/

namespace Sys2Proof

/-! ## A field taken out of a word and put back in its place (R61)

What the encoder puts into a field is given as the bits of the word under a mask, so that the fields of a format join to one mask. -/

theorem putField_extract (w : Word) (lo n : Nat) :
    putField lo (w.extractLsb' lo n) = w &&& putField lo (BitVec.allOnes n) := by
  ext i hi
  by_cases hlo : i < lo
  · simp [putField, hlo]
  · simp [putField, hlo, hi, show lo + (i - lo) = i by omega, Bool.and_comm]

/-- A field that the encoder leaves 0 holds no bit of the word. -/
theorem putField_zero (w : Word) {n lo : Nat} : putField lo (0#n) = w &&& 0#32 := by simp [putField]

theorem putField_zero_append {n k : Nat} (lo : Nat) (v : BitVec n) : putField lo (0#k ++ v) = putField lo v := by
  have hwiden : (0#k ++ v).setWidth 32 = v.setWidth 32 := BitVec.eq_of_toNat_eq (by simp)
  rw [putField, putField, hwiden]

section
variable (w : Word)

theorem putField_op : putField config.fields.op (config.fieldOp w) = w &&& 0xF8000000#32 := putField_extract ..
theorem putField_ra : putField config.fields.ra (regBits (config.fieldRa w)) = w &&& 0x07C00000#32 := putField_extract ..
theorem putField_rb : putField config.fields.rb (regBits (config.fieldRb w)) = w &&& 0x003E0000#32 := putField_extract ..
theorem putField_rc : putField config.fields.rc (regBits (config.fieldRc w)) = w &&& 0x0001F000#32 := putField_extract ..
theorem putField_c1 : putField config.fields.c1 (config.fieldC1 w) = w &&& 0x003FFFFF#32 := putField_extract ..
theorem putField_c2 : putField config.fields.c2 (config.fieldC2 w) = w &&& 0x0001FFFF#32 := putField_extract ..
theorem putField_count : putField config.fields.c3 (0#7 ++ config.fieldCount w) = w &&& 0x0000001F#32 :=
  (putField_zero_append ..).trans (putField_extract ..)
theorem putField_cond : putField config.fields.c3 (0#9 ++ config.fieldCond w) = w &&& 0x00000007#32 :=
  (putField_zero_append ..).trans (putField_extract ..)

/-- Formats 1 and 2 use every bit (R62, R63). -/
theorem format1_fields :
    config.format1 (config.fieldRa w) (config.fieldRb w) (config.fieldC2 w) = w &&& 0x07FFFFFF#32 := by
  rw [Config.format1, putField_ra, putField_rb, putField_c2, ← BitVec.and_or_distrib_left, ← BitVec.and_or_distrib_left]
  rfl

theorem format2_fields : config.format2 (config.fieldRa w) (config.fieldC1 w) = w &&& 0x07FFFFFF#32 := by
  rw [Config.format2, putField_ra, putField_c1, ← BitVec.and_or_distrib_left]
  rfl

end

/-! ## The instruction of a word holds the bits its row uses (R75, R77) -/

/-- The instruction is well-formed, and with the word's operation code the encoder writes the bits of the word that the row
uses. -/
def HoldsUsedBits (w : Word) (i : Instr) : Prop :=
  i.wf = true ∧ config.word (config.fieldOp w) (config.operands i) = w &&& ~~~(ignoredBits i)

theorem holdsUsedBits_of_mask {w : Word} {i : Instr} {used : Word} (ignored : Word) (hwf : i.wf = true)
    (hignored : ignoredBits i = ignored) (hi : config.operands i = w &&& used)
    (hmask : 0xF8000000#32 ||| used = ~~~ignored := by decide) : HoldsUsedBits w i := by
  refine ⟨hwf, ?_⟩
  rw [Config.word, putField_op, hi, hignored, ← hmask, BitVec.and_or_distrib_left]

/-- In formats 3 to 9 each field holds the bits of the word under a mask, and the masks are what the row does not ignore. -/
theorem holdsUsedBits_format3 {w : Word} {i : Instr} {ra rb rc : Reg} {c3 : BitVec 12} {ma mb mc m3 : Word} (ignored : Word)
    (hwf : i.wf = true) (hignored : ignoredBits i = ignored) (hi : config.operands i = config.format3 ra rb rc c3)
    (ha : putField config.fields.ra (regBits ra) = w &&& ma) (hb : putField config.fields.rb (regBits rb) = w &&& mb)
    (hc : putField config.fields.rc (regBits rc) = w &&& mc) (h3 : putField config.fields.c3 c3 = w &&& m3)
    (hmask : 0xF8000000#32 ||| (ma ||| mb ||| mc ||| m3) = ~~~ignored := by decide) : HoldsUsedBits w i := by
  refine holdsUsedBits_of_mask ignored hwf hignored ?_ hmask
  rw [hi, Config.format3, ha, hb, hc, h3]
  simp only [BitVec.and_or_distrib_left]

/-- The rows that use the operation code alone. -/
theorem holdsUsedBits_none (w : Word) {i : Instr} (hwf : i.wf = true) (hignored : ignoredBits i = 0x07FFFFFF#32)
    (hi : config.operands i = 0) : HoldsUsedBits w i :=
  holdsUsedBits_of_mask (used := 0#32) _ hwf hignored (hi.trans BitVec.and_zero.symm)

theorem holdsUsedBits_unusedRow (w : Word) (op : BitVec 5) : HoldsUsedBits w (unusedRow op) := by
  unfold unusedRow
  split_ifs <;> exact holdsUsedBits_none w rfl rfl rfl

theorem condNumber_of_condition : ∀ k : BitVec 3, ∀ o ∈ config.condition k, config.condNumber o = k := by decide

/-- The unused condition numbers are those with bits 2..1 set (R78). -/
theorem condition_eq_none_iff : ∀ k : BitVec 3, config.condition k = none ↔ k.extractLsb' 1 2 = 3#2 := by decide

theorem extract_fieldCond (w : Word) : (config.fieldCond w).extractLsb' 1 2 = w.extractLsb' 1 2 := by
  ext i hi
  simp [Config.fieldCond, config, defaultFields]

/-- The condition number 6, which the encoder writes for a reserved row, is bits 2..1 of the word: the row ignores bit 0. -/
theorem putField_reserved {w : Word} (h : config.condition (config.fieldCond w) = none) :
    putField config.fields.c3 (0#9 ++ 6#3) = w &&& 0x00000006#32 := by
  have hbits : w.extractLsb' 1 2 = 3#2 := (extract_fieldCond w).symm.trans ((condition_eq_none_iff _).1 h)
  calc putField config.fields.c3 (0#9 ++ 6#3)
    _ = putField 1 (w.extractLsb' 1 2) := by rw [hbits]; rfl
    _ = w &&& 0x00000006#32 := putField_extract ..

theorem holdsUsedBits_brRow (w : Word) :
    HoldsUsedBits w (brRow (config.fieldRb w) (config.fieldRc w) (config.condition (config.fieldCond w))) := by
  have hzero {n lo : Nat} := putField_zero w (n := n) (lo := lo)
  cases hk : config.condition (config.fieldCond w) with
  | none => exact holdsUsedBits_format3 0x07FFFFF9#32 rfl rfl rfl hzero hzero hzero (putField_reserved hk)
  | some k =>
    have hcond := putField_cond w
    rw [← condNumber_of_condition _ k hk] at hcond
    cases k with
    | never => exact holdsUsedBits_format3 0x07FFFFF8#32 rfl rfl rfl hzero hzero hzero hcond
    | always => exact holdsUsedBits_format3 0x07C1FFF8#32 rfl rfl rfl hzero (putField_rb w) hzero hcond
    | zero | nonzero | plus | minus =>
      exact holdsUsedBits_format3 0x07C00FF8#32 rfl rfl rfl hzero (putField_rb w) (putField_rc w) hcond

theorem holdsUsedBits_brlRow (w : Word) : HoldsUsedBits w
    (brlRow (config.fieldRa w) (config.fieldRb w) (config.fieldRc w) (config.condition (config.fieldCond w))) := by
  have hzero {n lo : Nat} := putField_zero w (n := n) (lo := lo)
  cases hk : config.condition (config.fieldCond w) with
  | none => exact holdsUsedBits_format3 0x07FFFFF9#32 rfl rfl rfl hzero hzero hzero (putField_reserved hk)
  | some k =>
    have hcond := putField_cond w
    rw [← condNumber_of_condition _ k hk] at hcond
    cases k with
    | never => exact holdsUsedBits_format3 0x003FFFF8#32 rfl rfl rfl (putField_ra w) hzero hzero hcond
    | always => exact holdsUsedBits_format3 0x0001FFF8#32 rfl rfl rfl (putField_ra w) (putField_rb w) hzero hcond
    | zero | nonzero | plus | minus =>
      exact holdsUsedBits_format3 0x00000FF8#32 rfl rfl rfl (putField_ra w) (putField_rb w) (putField_rc w) hcond

theorem holdsUsedBits_decodeWord (w : Word) : HoldsUsedBits w (decodeWord w) := by
  have hzero {n lo : Nat} := putField_zero w (n := n) (lo := lo)
  have hra := putField_ra w
  have hrb := putField_rb w
  have hrc := putField_rc w
  rw [decodeWord_of rfl]
  cases config.operation (fieldOp w) with
  | none => exact holdsUsedBits_unusedRow w _
  | some o =>
    cases o
    case br => exact decodeBr_eq_brRow config w ▸ holdsUsedBits_brRow w
    case brl => exact decodeBrl_eq_brlRow config w ▸ holdsUsedBits_brlRow w
    case ld | st | la =>
      have hfields := format1_fields w
      simp only [Config.decodeBase]
      split
      next hb =>
        rw [hb] at hfields
        exact holdsUsedBits_of_mask 0 rfl rfl hfields
      next hb => exact holdsUsedBits_of_mask 0 (bne_iff_ne.2 hb) rfl hfields
    case addi | ori | andi => exact holdsUsedBits_of_mask 0 rfl rfl (format1_fields w)
    case ldr | str | lar => exact holdsUsedBits_of_mask 0 rfl rfl (format2_fields w)
    case add | sub | and | or => exact holdsUsedBits_format3 0x00000FFF#32 rfl rfl rfl hra hrb hrc hzero
    case neg | not => exact holdsUsedBits_format3 0x003E0FFF#32 rfl rfl rfl hra hzero hrc hzero
    case svi | ri => exact holdsUsedBits_format3 0x0001FFFF#32 rfl rfl rfl hra hrb hzero hzero
    case shr | shra | shl | shc =>
      have hcount := putField_count w
      simp only [Config.decodeShift]
      split
      next hn =>
        rw [hn] at hcount
        exact holdsUsedBits_format3 0x00000FE0#32 rfl rfl rfl hra hrb hrc hcount
      next hn => exact holdsUsedBits_format3 0x0001FFE0#32 (bne_iff_ne.2 hn) rfl rfl hra hrb hzero hcount
    case nop | stop | een | edi | rfi => exact holdsUsedBits_none w rfl rfl rfl

/-- Settles O2: the operation code is that of the word, and the rest is what the row of the word uses. -/
theorem encodeOfDecodeKeepsTheUsedBits : Obligations.EncodeOfDecodeKeepsTheUsedBits := by
  intro w
  obtain ⟨hwf, hword⟩ := holdsUsedBits_decodeWord w
  have hop : config.opcode (decodeWord w) = config.fieldOp w := Machine.opcode_decodeWord w
  exact ⟨hwf, by rw [encode, Config.encode, hop, hword]⟩

/-! ## A change of ignored bits (R77) -/

theorem ignoredBits_op (i : Instr) : (ignoredBits i).extractLsb' 27 5 = 0#5 := by
  unfold ignoredBits
  split <;> decide

/-- A field that holds no ignored bit is left alone. -/
theorem extract_change {lo n : Nat} {m : Word} (hm : m.extractLsb' lo n = 0#n) (w u : Word) :
    (w ^^^ (u &&& m)).extractLsb' lo n = w.extractLsb' lo n := by
  rw [BitVec.extractLsb'_xor, BitVec.extractLsb'_and, hm, BitVec.and_zero, BitVec.xor_zero]

section
variable (w u : Word) {m : Word}

@[simp] theorem fieldRa_change (hm : m.extractLsb' 22 5 = 0#5) : config.fieldRa (w ^^^ (u &&& m)) = config.fieldRa w :=
  congrArg BitVec.toFin (extract_change hm w u)
@[simp] theorem fieldRb_change (hm : m.extractLsb' 17 5 = 0#5) : config.fieldRb (w ^^^ (u &&& m)) = config.fieldRb w :=
  congrArg BitVec.toFin (extract_change hm w u)
@[simp] theorem fieldRc_change (hm : m.extractLsb' 12 5 = 0#5) : config.fieldRc (w ^^^ (u &&& m)) = config.fieldRc w :=
  congrArg BitVec.toFin (extract_change hm w u)
@[simp] theorem fieldCount_change (hm : m.extractLsb' 0 5 = 0#5) : config.fieldCount (w ^^^ (u &&& m)) = config.fieldCount w :=
  extract_change hm w u
@[simp] theorem fieldCond_change (hm : m.extractLsb' 0 3 = 0#3) : config.fieldCond (w ^^^ (u &&& m)) = config.fieldCond w :=
  extract_change hm w u

/-- A reserved condition stays reserved when bit 0 changes (R78). -/
theorem condition_change (h : config.condition (config.fieldCond w) = none) (hm : m.extractLsb' 1 2 = 0#2) :
    config.condition (config.fieldCond (w ^^^ (u &&& m))) = none := by
  rw [condition_eq_none_iff, extract_fieldCond] at h ⊢
  rw [extract_change hm, h]

end

theorem decodeBr_change (w u : Word) : config.decodeBr (w ^^^ (u &&& ignoredBits (config.decodeBr w))) = config.decodeBr w := by
  simp only [decodeBr_eq_brRow]
  cases hk : config.condition (config.fieldCond w) with
  | none => simp [brRow, ignoredBits, condition_change w u hk]
  | some k =>
    cases k with
    | never | always | zero | nonzero | plus | minus => simp [brRow, ignoredBits, hk]

theorem decodeBrl_change (w u : Word) :
    config.decodeBrl (w ^^^ (u &&& ignoredBits (config.decodeBrl w))) = config.decodeBrl w := by
  simp only [decodeBrl_eq_brlRow]
  cases hk : config.condition (config.fieldCond w) with
  | none => simp [brlRow, ignoredBits, condition_change w u hk]
  | some k =>
    cases k with
    | never | always | zero | nonzero | plus | minus => simp [brlRow, ignoredBits, hk]

/-- Settles O3: the operation code is no ignored bit, and each row looks at the fields it uses alone. -/
theorem unusedBitsDoNotChangeTheInstruction : Obligations.UnusedBitsDoNotChangeTheInstruction := by
  intro w u
  have hop : fieldOp (w ^^^ (u &&& ignoredBits (decodeWord w))) = fieldOp w := extract_change (ignoredBits_op _) w u
  rw [decodeWord_of hop, decodeWord_of rfl]
  cases config.operation (fieldOp w) with
  | none => rfl
  | some o =>
    cases o
    case br => exact decodeBr_change w u
    case brl => exact decodeBrl_change w u
    case ld | st | la =>
      by_cases hb : config.fieldRb w = 0 <;> simp [Config.decodeBase, ignoredBits, hb]
    case addi | ori | andi => simp [Config.decodeImm, ignoredBits]
    case ldr | str | lar => simp [Config.decodeRel, ignoredBits]
    case add | sub | and | or => simp [Config.decodeThree, ignoredBits]
    case neg | not => simp [fieldRa, fieldRc, ignoredBits]
    case svi | ri => simp [fieldRa, fieldRb, ignoredBits]
    case shr | shra | shl | shc =>
      by_cases hn : config.fieldCount w = 0#5 <;> simp [Config.decodeShift, ignoredBits, hn]
    case nop | stop | een | edi | rfi => rfl

/-! ## The operation-code map (R74) -/

/-- Settles O4: each row is the one `decodeWord_of` gives for its code. -/
theorem operationCodeMapDecides : Obligations.OperationCodeMapDecides :=
  ⟨Machine.opcode_decodeWord, fun _ h => decodeWord_of h, fun _ h => decodeWord_of h, fun _ h => decodeWord_of h,
    fun _ h => decodeWord_of h, fun _ h => decodeWord_of h, fun _ h => decodeWord_of h, fun _ h => decodeWord_of h,
    fun _ h => decodeWord_of h, fun _ h => decodeWord_of h, fun _ h => decodeWord_of h, fun _ h => decodeWord_of h,
    fun _ h => decodeWord_of h, fun _ h => decodeWord_of h, fun _ h => decodeWord_of h, fun _ h => decodeWord_of h,
    fun _ h => decodeWord_of h, fun _ h => decodeWord_of h⟩

/-- Settles O5: each word is evaluated. -/
theorem workedWordsDecode : Obligations.WorkedWordsDecode := by
  unfold Obligations.WorkedWordsDecode
  decide

/-! ## The general forms of the branches (R83, R86) -/

theorem decodeWord_encodeBrGeneral (rb rc : Reg) (k : BitVec 3) :
    decodeWord (config.encodeBrGeneral rb rc k) = brRow rb rc (config.condition k) :=
  have hop : fieldOp (config.encodeBrGeneral rb rc k) = 8#5 :=
    fieldOp_word config_fields_sound _ _ (fieldOp_format3 config_fields_sound ..)
  (decodeWord_of hop).trans (decodeBr_formatBranch config_fields_sound ..)

theorem decodeWord_encodeBrlGeneral (ra rb rc : Reg) (k : BitVec 3) :
    decodeWord (config.encodeBrlGeneral ra rb rc k) = brlRow ra rb rc (config.condition k) :=
  have hop : fieldOp (config.encodeBrlGeneral ra rb rc k) = 9#5 :=
    fieldOp_word config_fields_sound _ _ (fieldOp_format3 config_fields_sound ..)
  (decodeWord_of hop).trans (decodeBrl_formatBranch config_fields_sound ..)

/-- Settles O6: the row of the condition number, for each of the eight. -/
theorem generalBranchFormsAreTheNamedForms : Obligations.GeneralBranchFormsAreTheNamedForms := fun ra rb rc =>
  have hbr := decodeWord_encodeBrGeneral rb rc
  have hbrl := decodeWord_encodeBrlGeneral ra rb rc
  ⟨hbr 0, hbrl 0, hbr 1, hbrl 1, hbr 2, hbrl 2, hbr 3, hbrl 3, hbr 4, hbrl 4, hbr 5, hbrl 5, hbr 6, hbrl 6, hbr 7, hbrl 7⟩

end Sys2Proof
end

section
/-! SUPPORT. O59: what the assembler refuses (30_encoding.md R82 to R86). -/

namespace Sys2Proof.Asm

/-! ## Constants that do not fit their field -/

theorem fitC2_out {n : Int} (h : n < -65536 ∨ 65535 < n) : fitSigned 17 n = .error .outOfRange := if_neg (by omega)

theorem fitC1_out {n : Int} (h : n < -2097152 ∨ 2097151 < n) : fitSigned 22 n = .error .outOfRange := if_neg (by omega)

theorem fitCount_out {n : Int} (h : n < 1 ∨ 31 < n) : fitCount n = .error .outOfRange := if_neg (by omega)

theorem fitCond_out {n : Int} (h : n < 0 ∨ 5 < n) : fitCond n = .error .outOfRange := if_neg (by omega)

/-- A number that its field refuses makes no word. -/
theorem map_num_refused {α : Type} (tab : SymbolTable) {n : Int} {fit : Int → Except AsmError α} {e : AsmError}
    (h : fit n = .error e) (f : α → Word) : (evalValue tab (.num n) >>= fit).map f = .error e :=
  congrArg (Except.map f) h

/-! ## The forms with a constant -/

section
variable (c : Config) (tab : SymbolTable) (ra rb : Reg) {n : Int}

theorem baseForm_abs_refused (hn : n < -65536 ∨ 65535 < n) (abs : Reg → BitVec 17 → Instr) (disp : Reg → Reg → BitVec 17 → Instr) :
    baseForm c tab abs disp [.reg ra, .value (.num n)] = .error .outOfRange := map_num_refused tab (fitC2_out hn) _

theorem baseForm_disp_refused (hn : n < -65536 ∨ 65535 < n) (abs : Reg → BitVec 17 → Instr) (disp : Reg → Reg → BitVec 17 → Instr)
    (hb : rb ≠ 0) : baseForm c tab abs disp [.reg ra, .based (.num n) rb] = .error .outOfRange :=
  (if_neg hb).trans (map_num_refused tab (fitC2_out hn) _)

theorem immForm_refused (hn : n < -65536 ∨ 65535 < n) (f : Reg → Reg → BitVec 17 → Instr) :
    immForm c tab f [.reg ra, .reg rb, .value (.num n)] = .error .outOfRange := map_num_refused tab (fitC2_out hn) _

theorem relForm_refused (hn : n < -2097152 ∨ 2097151 < n) (f : Reg → BitVec 22 → Instr) :
    relForm c tab f [.reg ra, .value (.num n)] = .error .outOfRange := map_num_refused tab (fitC1_out hn) _

theorem shiftForm_refused (hn : n < 1 ∨ 31 < n) (reg : Reg → Reg → Reg → Instr) (const : Reg → Reg → BitVec 5 → Instr) :
    shiftForm c tab reg const [.reg ra, .reg rb, .value (.num n)] = .error .outOfRange := map_num_refused tab (fitCount_out hn) _

end

/-- Settles O59: every mnemonic is one of these forms, and each answers with the error of its constant's field; the base r0 is
refused before the constant is looked at (R84). -/
theorem assemblerRefusesWhatDoesNotFit : Obligations.AssemblerRefusesWhatDoesNotFit := by
  intro c tab ra rb rc n
  simp only [List.forall_mem_cons]
  refine ⟨fun hn => ?_, fun hn => ?_, fun hn => ?_, fun hn => ?_, fun hn => ⟨?_, ?_⟩, rfl, rfl, rfl, nofun⟩
  · have hbase abs disp := And.intro (baseForm_abs_refused c tab ra hn abs disp) (baseForm_disp_refused c tab ra rb hn abs disp)
    exact ⟨hbase .ldAbs .ldDisp, hbase .stAbs .stDisp, hbase .laAbs .laDisp, nofun⟩
  · have himm := immForm_refused c tab ra rb hn
    exact ⟨himm .addi, himm .ori, himm .andi, nofun⟩
  · have hrel := relForm_refused c tab ra hn
    exact ⟨hrel .ldr, hrel .str, hrel .lar, nofun⟩
  · have hshift := shiftForm_refused c tab ra rb hn
    exact ⟨hshift .shrReg .shrConst, hshift .shraReg .shraConst, hshift .shlReg .shlConst, hshift .shcReg .shcConst, nofun⟩
  · exact map_num_refused tab (fitCond_out hn) _
  · exact map_num_refused tab (fitCond_out hn) _

end Sys2Proof.Asm
end

section
/-! SUPPORT. O22, O24, O31, O41: immediate operands (41_arithmetic.md), and the rows that stop (30_encoding.md R76, R78). -/

namespace Sys2Proof.Machine

/-! ## Immediate operands (R71, R122, R126, R128, R129) -/

theorem writesOnlyReg_setReg (ra : Reg) (v : Word) (s : State) : WritesOnlyReg ra s (s.setReg ra v) :=
  ⟨fun _ hi => State.reg_setReg_ne s v (List.ne_of_not_mem_cons hi).symm, rfl, fun _ => rfl, ⟨rfl, rfl, rfl, rfl⟩, rfl, rfl, rfl⟩

/-- Settles O22: the sum of R122 as a signed one, by `add_signExtend`. -/
theorem addImmediateAddsTheSignedConstant : Obligations.AddImmediateAddsTheSignedConstant := by
  intro s ra rb c2
  refine ⟨_, rfl, ?_, writesOnlyReg_setReg ra _ s⟩
  rw [State.reg_setReg_same, constC2, add_signExtend, BitVec.toNat_ofInt]
  exact Int.toNat_of_nonneg (Int.emod_nonneg _ (by decide))

/-- Sign extension repeats bit 16 (R71). -/
theorem getLsbD_constC2 (c2 : BitVec 17) {k : Nat} (hk : k < 32) : (constC2 c2).getLsbD k = c2.getLsbD (min k 16) := by
  rw [constC2, BitVec.getLsbD_signExtend]
  by_cases hlow : k < 17
  · simp [hk, hlow, show min k 16 = k by omega]
  · simp [hk, hlow, show min k 16 = 16 by omega, BitVec.msb_eq_getLsbD_last]

/-- Settles O24: bit by bit, those of the constant by `getLsbD_constC2`. -/
theorem logicImmediatesSignExtendAndNotComplements : Obligations.LogicImmediatesSignExtendAndNotComplements := by
  intro s ra rb rc c2
  refine ⟨⟨_, rfl, fun k hk => ?_, writesOnlyReg_setReg ra _ s⟩, ⟨_, rfl, fun k hk => ?_, writesOnlyReg_setReg ra _ s⟩,
    ⟨_, rfl, fun k hk => ?_, writesOnlyReg_setReg ra _ s⟩⟩
  · rw [State.reg_setReg_same, BitVec.getLsbD_or, getLsbD_constC2 c2 hk]
  · rw [State.reg_setReg_same, BitVec.getLsbD_and, getLsbD_constC2 c2 hk]
  · simp [hk]

/-! ## Rows that stop (30_encoding.md R76, R78) -/

/-- A step that fetches a word whose row faults: PC is advanced, and the fault carries the word. -/
theorem step_fault_of_exec {s : State} {w : Word} {e : Fault} (hexec : Executes s) (hfetch : fetch config s = .next w)
    (hfault : exec (decodeWord w) (afterFetch s) = .fault e) : step s = .fault (e.withWord w) := by
  rw [step_fetched hexec hfetch, hfault, recordWord_fault]

theorem condition_none_of_reserved : ∀ k : BitVec 3, 6 ≤ k.toNat → config.condition k = none := by decide

/-- Settles O31: a condition that names none selects the reserved row. -/
theorem reservedConditionsStop : Obligations.ReservedConditionsStop := by
  refine ⟨fun s => ⟨⟨_, rfl⟩, ⟨_, rfl⟩⟩, fun s w hexec hfetch hop hk => ⟨afterFetch s, ?_, leavesAllButPc_afterFetch s⟩⟩
  have hcond : config.condition (config.fieldCond w) = none := condition_none_of_reserved _ hk
  rcases hop with hop | hop
  · have hdecode : decodeWord w = .brReservedCond := by
      rw [decodeWord_of hop]
      exact (decodeBr_eq_brRow config w).trans (hcond ▸ rfl)
    exact step_fault_of_exec hexec hfetch (by rw [hdecode]; rfl)
  · have hdecode : decodeWord w = .brlReservedCond := by
      rw [decodeWord_of hop]
      exact (decodeBrl_eq_brlRow config w).trans (hcond ▸ rfl)
    exact step_fault_of_exec hexec hfetch (by rw [hdecode]; rfl)

theorem exec_unused (s : State) : ∀ i ∈ [Instr.unusedOp7, .unusedOp18, .unusedOp19, .unusedOp25],
    ∃ v, exec i s = .fault (.illegalOpcode v s) := by
  simp only [List.forall_mem_cons]
  exact ⟨⟨_, rfl⟩, ⟨_, rfl⟩, ⟨_, rfl⟩, ⟨_, rfl⟩, nofun⟩

theorem unusedRow_mem (op : BitVec 5) : unusedRow op ∈ [Instr.unusedOp7, .unusedOp18, .unusedOp19, .unusedOp25] := by
  unfold unusedRow
  split_ifs <;> simp

/-- Settles O41: an operation code that names no operation selects one of the four rows. -/
theorem unusedOperationCodesStop : Obligations.UnusedOperationCodesStop := by
  refine ⟨exec_unused, fun s w hexec hfetch hop => ⟨afterFetch s, ?_, leavesAllButPc_afterFetch s⟩⟩
  have hdecode : decodeWord w = unusedRow (fieldOp w) := by rw [decodeWord_of rfl, config_sound.unused _ hop]
  obtain ⟨v, hfault⟩ := exec_unused (afterFetch s) _ (unusedRow_mem (fieldOp w))
  exact step_fault_of_exec hexec hfetch (hdecode ▸ hfault)

end Sys2Proof.Machine
end

section
/-! SUPPORT. O18: load address (40_load_store.md R106, R107). -/

namespace Sys2Proof.Machine

theorem setReg_completes (ra : Reg) (s : State) {v w : Word} (hv : v = w) :
    ∃ t, (.next (s.setReg ra v) : Result State) = .next t ∧ t.reg ra = w ∧ WritesOnlyReg ra s t :=
  ⟨_, rfl, (State.reg_setReg_same ..).trans hv, writesOnlyReg_setReg ra v s⟩

/-- Settles O18: each form writes its effective address into R[ra], one of the sums of O15; the base r0 counts as 0 (R100). -/
theorem loadAddressComputesWithoutAccess : Obligations.LoadAddressComputesWithoutAccess := by
  intro s ra rb c2 c1
  obtain ⟨habs, hbased, hr0, -, hrel⟩ := effectiveAddressesAreTheSpecsSums s rb c2 c1 0
  refine ⟨setReg_completes ra s habs, setReg_completes ra s ?_, setReg_completes ra s hrel⟩
  by_cases hrb : rb = 0
  · rw [if_pos hrb, zero_add, hrb, hr0, habs]
  · rw [if_neg hrb, hbased hrb]

end Sys2Proof.Machine
end

section
/-! SUPPORT. O20, O21, O23: register arithmetic and logic (41_arithmetic.md R121, R123 to R125, R127). -/

namespace Sys2Proof.Machine

/-! ## Sum, difference and negative (R121, R123, R124) -/

/-- The difference modulo 2^32, as one of integers: the remainder is not negative. -/
theorem toNat_sub_emod (v w : Word) : ((v - w).toNat : Int) = (v.toNat - w.toNat : Int) % 2 ^ 32 := by
  rw [BitVec.toNat_sub]
  omega

/-- Settles O20: the rows of codes 12 and 14; the difference by `toNat_sub_emod`. -/
theorem addAndSubtractModuloWord : Obligations.AddAndSubtractModuloWord := by
  refine ⟨fun _ h => decodeWord_of h, fun _ h => decodeWord_of h, fun s ra rb rc =>
    ⟨⟨_, rfl, ?_, writesOnlyReg_setReg ra _ s⟩, ⟨_, rfl, ?_, writesOnlyReg_setReg ra _ s⟩⟩⟩
  · rw [State.reg_setReg_same, BitVec.toNat_add]
  · rw [State.reg_setReg_same, toNat_sub_emod]

/-- Settles O21: the row of code 15; a negative is the difference from 0, and the complement plus one. -/
theorem negateIsTwosComplement : Obligations.NegateIsTwosComplement := by
  refine ⟨fun _ h => decodeWord_of h, fun s ra rc => ⟨_, rfl, ?_, ?_, writesOnlyReg_setReg ra _ s⟩⟩
  · rw [State.reg_setReg_same]
    exact toNat_sub_emod 0 (s.reg rc)
  · rw [State.reg_setReg_same]
    exact (BitVec.zero_sub _).trans (BitVec.neg_eq_not_add _)

/-! ## Bits of two registers (R125, R127) -/

/-- Settles O23: the rows of codes 22 and 20, and the operations bit by bit. -/
theorem orAndAndActOnEachBit : Obligations.OrAndAndActOnEachBit := by
  refine ⟨fun _ h => decodeWord_of h, fun _ h => decodeWord_of h, fun s ra rb rc =>
    ⟨⟨_, rfl, fun k => ?_, writesOnlyReg_setReg ra _ s⟩, ⟨_, rfl, fun k => ?_, writesOnlyReg_setReg ra _ s⟩⟩⟩
  · rw [State.reg_setReg_same, BitVec.getLsbD_or]
  · rw [State.reg_setReg_same, BitVec.getLsbD_and]

end Sys2Proof.Machine
end

section
/-! SUPPORT. O25 to O28: the shifts, with a register count and a constant count (42_shift.md R140 to R144). -/

namespace Sys2Proof.Machine

/-! ## The register count (R140) -/

theorem registerCount_eq_mod (s : State) (rc : Reg) : registerCount s rc = (s.reg rc).toNat % 32 := by
  rw [registerCount, BitVec.extractLsb'_toNat, Nat.shiftRight_zero]

/-! ## What each shift makes of a word (R141 to R144) -/

theorem toNat_shiftRightLogical (v : Word) (n : Nat) : (shiftRightLogical v n).toNat = v.toNat / 2 ^ n := by
  rw [shiftRightLogical, BitVec.toNat_ushiftRight, Nat.shiftRight_eq_div_pow]

theorem toInt_shiftRightArith (v : Word) (n : Nat) : (shiftRightArith v n).toInt = v.toInt / 2 ^ n := by
  rw [shiftRightArith, BitVec.toInt_sshiftRight, Int.shiftRight_eq_div_pow, Nat.cast_pow, Nat.cast_ofNat]

theorem toNat_shiftLeft (v : Word) (n : Nat) : (shiftLeft v n).toNat = v.toNat * 2 ^ n % 2 ^ 32 := by
  rw [shiftLeft, BitVec.toNat_shiftLeft, Nat.shiftLeft_eq]

/-- A bit that stays in the word on its way left comes from the left shift, one that leaves at the top from the right shift. -/
theorem getLsbD_shiftCircular (v : Word) {n k : Nat} (hn : n < 32) (hk : k < 32) :
    (shiftCircular v n).getLsbD ((k + n) % 32) = v.getLsbD k := by
  rw [shiftCircular]
  split
  next h0 => rw [h0, Nat.add_zero, Nat.mod_eq_of_lt hk]
  next h0 =>
    rw [BitVec.getLsbD_or, BitVec.getLsbD_shiftLeft, BitVec.getLsbD_ushiftRight]
    by_cases hstay : k + n < 32
    · have hgone : v.getLsbD (32 - n + (k + n)) = false := BitVec.getLsbD_of_ge v _ (by omega)
      simp [Nat.mod_eq_of_lt hstay, hstay, hgone]
    · have hpos : (k + n) % 32 = k + n - 32 := by omega
      have hsource : 32 - n + (k + n - 32) = k := by omega
      have hlow : k + n - 32 < n := by omega
      simp [hpos, hsource, hlow]

/-! ## The instructions -/

/-- Both forms complete, write the shifted word into R[ra] and nothing else; what holds of the shift at every count below 32 holds of
what they write. -/
theorem shift_forms_complete {shift : Word → Nat → Word} (Shifted : Word → Nat → Word → Prop)
    (h : ∀ v n, n < 32 → Shifted v n (shift v n)) (s : State) (ra rb rc : Reg) (count : BitVec 5) :
    (∃ t, (.next (s.setReg ra (shift (s.reg rb) (registerCount s rc))) : Result State) = .next t ∧
      Shifted (s.reg rb) ((s.reg rc).toNat % 32) (t.reg ra) ∧ WritesOnlyReg ra s t) ∧
    (∃ t, (.next (s.setReg ra (shift (s.reg rb) (constantCount count))) : Result State) = .next t ∧
      Shifted (s.reg rb) count.toNat (t.reg ra) ∧ WritesOnlyReg ra s t) := by
  refine ⟨⟨_, rfl, ?_, writesOnlyReg_setReg ra _ s⟩, ⟨_, rfl, ?_, writesOnlyReg_setReg ra _ s⟩⟩
  · rw [State.reg_setReg_same, registerCount_eq_mod]
    exact h _ _ (Nat.mod_lt _ (by decide))
  · rw [State.reg_setReg_same]
    exact h _ _ count.isLt

/-- Settles O25: the row of code 26, and the quotient by `toNat_shiftRightLogical`. -/
theorem shiftRightDividesUnsigned : Obligations.ShiftRightDividesUnsigned :=
  ⟨fun _ h => decodeWord_of h, shift_forms_complete (fun v n r => r.toNat = v.toNat / 2 ^ n)
    fun v n _ => toNat_shiftRightLogical v n⟩

/-- Settles O26: the row of code 27, and the quotient of the signed value by `toInt_shiftRightArith`. -/
theorem shiftRightArithmeticDividesSigned : Obligations.ShiftRightArithmeticDividesSigned :=
  ⟨fun _ h => decodeWord_of h, shift_forms_complete (fun v n r => r.toInt = v.toInt / 2 ^ n)
    fun v n _ => toInt_shiftRightArith v n⟩

/-- Settles O27: the row of code 28, and the product by `toNat_shiftLeft`. -/
theorem shiftLeftMultiplies : Obligations.ShiftLeftMultiplies :=
  ⟨fun _ h => decodeWord_of h, shift_forms_complete (fun v n r => r.toNat = v.toNat * 2 ^ n % 2 ^ 32)
    fun v n _ => toNat_shiftLeft v n⟩

/-- Settles O28: the row of code 29, and the place of each bit by `getLsbD_shiftCircular`. -/
theorem shiftCircularRotatesLeft : Obligations.ShiftCircularRotatesLeft :=
  ⟨fun _ h => decodeWord_of h,
    shift_forms_complete (fun v n r => ∀ k, k < 32 → r.getLsbD ((k + n) % 32) = v.getLsbD k)
      fun v _ hn _ hk => getLsbD_shiftCircular v hn hk⟩

end Sys2Proof.Machine
end

section
/-! SUPPORT. O29: the branches without a link (43_branch.md R160, R161). -/

namespace Sys2Proof.Machine

/-- A word with operation code 8 is the row of its condition. -/
theorem decodeWord_eq_brRow {w : Word} {k : BitVec 3} (hop : fieldOp w = 8#5) (hcond : fieldCond w = k) :
    decodeWord w = brRow (fieldRb w) (fieldRc w) (config.condition k) := by
  subst hcond
  exact (decodeWord_of hop).trans (decodeBr_eq_brRow config w)

/-- A branch goes to R[rb] exactly when its condition holds of R[rc], and touches nothing but PC. -/
theorem branchIf_branchesTo {k : Cond} {taken : Prop} (rb rc : Reg) (s : State) (hk : k.holds (s.reg rc) = true ↔ taken) :
    BranchesTo taken (s.reg rb) [] s (branchIf k rb rc s) := by
  refine ⟨fun htaken => ?_, fun hnot => ?_, fun i _ => branchIf_reg k rb rc i s, fun a => ?_,
    ⟨branchIf_run .., branchIf_ie .., branchIf_ipc .., branchIf_ii ..⟩, branchIf_irq .., branchIf_iack .., branchIf_draws ..⟩
  · rw [branchIf_pc, if_pos (hk.2 htaken)]
  · rw [branchIf_pc, if_neg (mt hk.1 hnot)]
  · simp only [State.byte, branchIf_mem]

/-- Settles O29: every `br` form is `branchIf` of its condition; `never` fails and `always` holds whatever R[rc] is, so that their
forms, which fix the fields they do not use, are that too. -/
theorem branchesGoToTheRegisterOnTheirCondition : Obligations.BranchesGoToTheRegisterOnTheirCondition := by
  refine ⟨fun _ => decodeWord_eq_brRow, fun _ => decodeWord_eq_brRow, fun _ => decodeWord_eq_brRow,
    fun _ => decodeWord_eq_brRow, fun _ => decodeWord_eq_brRow, fun _ => decodeWord_eq_brRow, fun s rb rc => ?_⟩
  refine ⟨⟨_, rfl, ?_⟩, ⟨_, rfl, ?_⟩, ⟨_, rfl, ?_⟩, ⟨_, rfl, ?_⟩, ⟨_, rfl, ?_⟩, ⟨_, rfl, ?_⟩⟩
  · exact branchIf_branchesTo rb rc s (k := .never) (by simp [Cond.holds])
  · exact branchIf_branchesTo rb rc s (k := .always) (by simp [Cond.holds])
  · exact branchIf_branchesTo rb rc s (holds_zero _)
  · exact branchIf_branchesTo rb rc s (holds_nonzero _)
  · exact branchIf_branchesTo rb rc s (holds_plus _)
  · exact branchIf_branchesTo rb rc s (holds_minus _)

end Sys2Proof.Machine
end

section
/-! SUPPORT. O33 to O35, O40, O46: no operation, halt, and the interrupt control instructions (44_miscellaneous.md R190 to R196). -/

namespace Sys2Proof.Machine

/-! ## nop and stop (R190, R191) -/

/-- Settles O33: the row of code 0. -/
theorem nopOnlyAdvancesPc : Obligations.NopOnlyAdvancesPc :=
  ⟨fun _ hop => decodeWord_of hop, rfl, fun _ => rfl⟩

theorem run_false_of_exec {i : Instr} {s t : State} (h : exec i s = .next t) (hrun : s.run = false) : t.run = false := by
  rcases (exec_effect h).run_cases with rfl | hkept
  · cases h
    rfl
  · exact hkept.trans hrun

/-- Settles O34: the row of code 31; a halted machine has no step, and no effect sets Run. -/
theorem stopHaltsForGood : Obligations.StopHaltsForGood :=
  ⟨fun _ hop => decodeWord_of hop,
    fun s => ⟨s.setRun false, rfl, rfl, fun _ _ => rfl, fun _ => rfl, rfl, rfl, rfl, rfl, ⟨rfl, rfl, rfl⟩, step_halted rfl⟩,
    fun _ _ _ => run_false_of_exec⟩

/-! ## een and edi (R192, R193) -/

theorem not_accepts_of_disabled {s : State} (hie : s.ie = false) : ¬ ∃ q, Accepts s q := by
  rintro ⟨q, -, henabled, -⟩
  cases hie.symm.trans henabled

/-- A step while IE = 0 is no interrupt entry, so that it acknowledges nothing and only `ri` writes IPC and II. -/
theorem step_disabled {s t : State} (hie : s.ie = false) (h : step s = .next t) :
    t.iack = false ∧ ((t.ipc ≠ s.ipc ∨ t.ii ≠ s.ii) → ∃ ra rb, RunsInstr s (.ri ra rb)) := by
  have hnone := not_accepts_of_disabled hie
  refine ⟨?_, fun hchanged => ?_⟩
  · rwa [← Bool.not_eq_true, acknowledgeMarksExactlyTheAcceptedRequests s t h]
  · exact (interruptRegistersChangeOnlyAsListed s t h hchanged).resolve_left hnone

/-- Settles O35: the rows of codes 10 and 11; the boundary after `een` accepts what is presented, the one after `edi` uses it up. -/
theorem enableAndDisableActAtTheNextBoundary : Obligations.EnableAndDisableActAtTheNextBoundary := by
  refine ⟨fun _ hop => decodeWord_of hop, fun _ hop => decodeWord_of hop, fun s => ?_, fun s => ?_, fun i s t h =>
    (exec_effect h).een_or_rfi_of_ie_set⟩
  · refine ⟨s.setIe true, rfl, rfl, fun _ _ => rfl, fun _ => rfl, rfl, rfl, rfl, rfl, ⟨rfl, rfl, rfl⟩, fun q hrun hq => ?_⟩
    have haccepts : Accepts (s.setIe true) q := ⟨hrun, rfl, hq⟩
    exact ⟨_, step_accepts haccepts, rfl, rfl⟩
  · exact ⟨s.setIe false, rfl, rfl, fun _ _ => rfl, fun _ => rfl, rfl, rfl, rfl, rfl, ⟨rfl, rfl, rfl⟩,
      step_eq_of_passBoundary_eq rfl rfl rfl, fun _ => step_disabled rfl⟩

/-! ## svi and then ri (R195, R196, R220) -/

theorem ne_of_exec_svi {s t : State} {ra rb : Reg} (h : exec (.svi ra rb) s = .next t) : ra ≠ rb := by
  rintro rfl
  cases (exec_svi_same ra s).symm.trans h

/-- Settles O40: `ri` reads the low half, where `svi` has put II whatever SVI_UPPER makes of the other. -/
theorem savedInterruptStateIsRestored : Obligations.SavedInterruptStateIsRestored := by
  intro s t u ra rb h hra hrb
  have hne : ra ≠ rb := ne_of_exec_svi h
  cases (exec_svi hne s).symm.trans h
  obtain ⟨hlow, hipc, -, -⟩ := saveUpperHalfFollowsTheParameter config s ra rb hne
  refine ⟨restoreInterruptState ra rb u, rfl, ?_, hrb.trans hipc⟩
  calc (u.reg ra).extractLsb' 0 16
    _ = ((saveInterruptState config ra rb s).reg ra).extractLsb' 0 16 := by rw [hra]
    _ = s.ii := hlow

/-! ## Entry and then rfi (R194, R215, R220) -/

/-- Settles O46: the entry saved PC in IPC, and IE was 1 since the request was accepted. -/
theorem interruptedProgramResumes : Obligations.InterruptedProgramResumes := by
  rintro s q ⟨hrun, hie, hq⟩
  exact ⟨_, _, step_accepts ⟨hrun, hie, hq⟩, rfl, rfl, hie.symm, rfl, fun _ _ => rfl, fun _ => rfl⟩

end Sys2Proof.Machine
end

section
/-! SUPPORT. O44: interrupt entry (60_exceptions.md R214 to R218). -/

namespace Sys2Proof.Machine

/-- No vector number is cut off: 16 * vect needs 12 of the 32 bits (R216). -/
theorem entryAddress_toNat (vect : Byte) : (entryAddress vect).toNat = 16 * vect.toNat := by
  rw [entryAddress, BitVec.toNat_append, BitVec.toNat_append]
  simp [Nat.shiftLeft_eq, Nat.mul_comm]

/-- Settles O44: the step is `interruptEntry` once the boundary has gone by, and nothing is fetched at PC. -/
theorem acceptedRequestEntersTheHandler : Obligations.AcceptedRequestEntersTheHandler := by
  rintro s q ⟨hrun, hie, hq⟩
  exact ⟨interruptEntry q s.passBoundary, step_accepts ⟨hrun, hie, hq⟩, rfl, rfl, rfl, entryAddress_toNat q.vect, hrun, rfl,
    fun _ _ => rfl, fun _ => rfl, rfl, rfl⟩

end Sys2Proof.Machine
end
